-- ==== Sys2Proof/Syntax.lean ====
section
/-! DEFINITION. The five commands, one constructor per row of spec/opcode_table.json (spec/30_encoding.md R71). A command has
no operand fields: every operand is implicit (R76). A word that is no command is ILLEGAL (R77); it is no row of the table and
so no constructor here, see Decode.lean. -/

namespace Sys2Proof

/-- The commands of R71. -/
inductive Instr where
  /-- HEX_DECODE, hex string to bytes (R108). -/
  | hexDecode
  /-- B64_ENCODE, bytes to Base64 (R126). -/
  | b64Encode
  /-- HEX_TO_B64, hex string to Base64 (R131). -/
  | hexToB64
  /-- XOR_HEX, fixed XOR of two hex strings, as hex (R146). -/
  | xorHex
  /-- HEX_ENCODE, bytes to lowercase hex (R151). -/
  | hexEncode
deriving DecidableEq, Repr

end Sys2Proof
end

