-- ==== Sys2Proof/Word.lean ====
section
/-! DEFINITION. The words of the block (spec/00_scope.md R12). Plain names for bit vectors, nothing else. -/

namespace Sys2Proof

/-- An octet, 8 bits (R12). -/
abbrev Byte := BitVec 8

/-- An interface register, a command word or the data of a bus access, 32 bits (R12). -/
abbrev Word := BitVec 32

/-- The value of one hex digit, 4 bits (R12). -/
abbrev Nibble := BitVec 4

/-- A Base64 index, 6 bits (R12). -/
abbrev Sextet := BitVec 6

/-- A Base64 group word, 24 bits (R12). -/
abbrev Group := BitVec 24

end Sys2Proof
end

