-- ==== Sys2Proof/Decode.lean ====
section
/-! DEFINITION. Decoding a CMD word (spec/30_encoding.md R70 to R77) and, after it, encoding a command. A word that is no
command is rejected by the name of the rule it breaks; the machine PERFORMS it as an ILLEGAL_OP failure (R77, log 8). -/

namespace Sys2Proof

/-- Why a CMD word is no command. -/
inductive Reject where
  /-- One of the bits [31:4] is set, whatever OP is (R72). -/
  | reservedBits
  /-- Bits [31:4] are 0 and OP is 0x0 or 0x6 to 0xF (R73). -/
  | illegalOpcode
deriving DecidableEq, Repr

/-- What R77's decoder returns: a command, or ILLEGAL with its reason. -/
inductive Decoded where
  | command (i : Instr)
  | illegal (why : Reject)
deriving DecidableEq, Repr

/-- The field OP, bits [3:0] (R70). -/
def opField (w : Word) : BitVec 4 := w.extractLsb' 0 4

/-- The field RSV, bits [31:4] (R70). -/
def rsvField (w : Word) : BitVec 28 := w.extractLsb' 4 28

/-- The opcode map of R71; `none` for the OP values of R73. -/
def opcodeMap (op : BitVec 4) : Option Instr :=
  match op.toNat with
  | 0x1 => some .hexDecode
  | 0x2 => some .b64Encode
  | 0x3 => some .hexToB64
  | 0x4 => some .xorHex
  | 0x5 => some .hexEncode
  | _ => none

/-- The decoder of R77, total on all 2^32 words. -/
def decode (w : Word) : Decoded :=
  if rsvField w = 0 then
    match opcodeMap (opField w) with
    | some i => .command i
    | none => .illegal .illegalOpcode
  else .illegal .reservedBits

/-- The command a CMD word is, if it is one. -/
def Decoded.instr? : Decoded → Option Instr
  | .command i => some i
  | .illegal _ => none

/-- The OP value of each command (R71). -/
def opcode : Instr → BitVec 4
  | .hexDecode => 0x1
  | .b64Encode => 0x2
  | .hexToB64 => 0x3
  | .xorHex => 0x4
  | .hexEncode => 0x5

/-- The word of a command: OP in bits [3:0], RSV 0 (R70, R71). -/
def encode (i : Instr) : Word := (0 : BitVec 28) ++ opcode i

/-- The instruction the decoder reads from the table's numbering of bits: a command is one 32-bit word (R75), so bit 0 of `w` is
bit 0 of the word and a number that does not fit 32 bits is no command. -/
def decodeTableWord (nbits w : Nat) : Option Instr :=
  if w % 2 ^ nbits < 2 ^ 32 then (decode (BitVec.ofNat 32 (w % 2 ^ nbits))).instr? else none

end Sys2Proof
end

