-- ==== Sys2Proof/Config.lean ====
section
/-! DEFINITION. What is fixed for one block (the parameters of spec/00_scope.md R7) and the values the spec leaves open
(spec/93_implementation_defined.md U1, U2, U4). -/

namespace Sys2Proof

/-- The parameters of R7 that some rule depends on, with the number of bus masters of the launch (R177).
They are the model's arguments: held in State as data no step changes, so that every statement is about every value of them
(log 2). `BUS_PROTOCOL` and `CMD_TIME_BOUND` have no field: no rule depends on them (log 12, log 13). -/
structure Config where
  /-- `MAX_IN`, the capacity of BUF_A and of BUF_B in octets; legal values 1 to 65536 (R7, U12). -/
  maxIn : Nat
  /-- `BASE`, the bus address of offset 0; a multiple of 0x80000 (R7, R52, U13). -/
  base : Nat
  /-- How many bus masters drive the block; the spec covers one (R177, D19, U16). -/
  masters : Nat
deriving DecidableEq, Repr

/-- `MAX_OUT = max(2*MAX_IN, 4)`, the capacity of BUF_OUT (R7, R35). -/
def Config.maxOut (c : Config) : Nat := max (2 * c.maxIn) 4

/-- The reference configuration: `MAX_IN` 4096 (R7), one host (D19), and `BASE` 0 (DESIGN CHOICE, unsafe: the spec leaves BASE
open; log 3). -/
def Config.reference : Config where
  maxIn := 4096
  base := 0
  masters := 1

/-- FREE VALUE (log 6). The unspecified BUF_OUT octet at `index` after the command that made draw number `draw` (U1, U2). -/
opaque Config.drawnOctet : (draw index : Nat) → Byte

/-- FREE VALUE (log 4). What the buffer octet at `offset` holds since reset number `epoch` while the host has not written it
(R182), as a command reads it (U4). -/
opaque Config.unwrittenOctet : (epoch offset : Nat) → Byte

end Sys2Proof
end

