-- ==== Sys2Proof/Machine/State.lean ====
section
/-! DEFINITION. The state of the block as plain data (spec/10_state.md R20 to R44), the host's run it still has to take
(spec/70_reset_and_hazards.md R190, R191), the ways a step can stop, and the state after reset. -/

namespace Sys2Proof.Machine

/-- The error codes a command can end with (R160). -/
inductive ErrCode where
  | invalidLength
  | invalidDigit
  | lengthMismatch
  | illegalOp
  | capacity
deriving DecidableEq, Repr

/-- Operand A or operand B, as an error names it (R33, R102). -/
inductive Operand where
  | a
  | b
deriving DecidableEq, Repr

/-- What `raise Error(code, opnd, pos, ch)` carries (R11, R165). -/
structure CmdError where
  code : ErrCode
  opnd : Operand
  pos : Nat
  ch : Byte
deriving DecidableEq, Repr

/-- How a command ends (R78): `return out`, or `raise Error(...)`. -/
inductive CmdResult where
  | done (out : List Byte)
  | raised (e : CmdError)
deriving DecidableEq, Repr

/-- One transaction of the host, or a reset event (R190, R191). Addresses are host bus addresses, BASE + offset (R52); `size` is
any number of octets, of which the block accepts 1 and 4 (R53); `data` carries the value in its low `8*size` bits (log 17). -/
inductive HostEvent where
  /-- `Read(off, n)` at bus address `addr = BASE + off` (R53). -/
  | read (addr size : Nat)
  /-- `Write(off, n, v)` at bus address `addr = BASE + off` (R53). -/
  | write (addr size : Nat) (data : Word)
  /-- A reset between host accesses (R180). -/
  | reset
  /-- A reset that arrives while the write of `word` to CMD is in progress: the command is abandoned (R180, U17). -/
  | resetDuringCommand (word : Word)
deriving DecidableEq, Repr

/-- What the bus port answered to one access addressed to the block (R53, R56). -/
inductive Response where
  /-- A read's value; an octet read gives the octet in bits [7:0]. -/
  | readData (v : Word)
  /-- `BUS_ERROR` to a read. -/
  | readBusError
  /-- Completion of a write. -/
  | writeDone
  /-- `BUS_ERROR` to a write. -/
  | writeBusError
deriving DecidableEq, Repr

/-- Octets by block offset. An unlisted offset holds no value (log 5). Canonical form: offsets strictly rising (`Memory.wf`). -/
abbrev Memory := List Host.Cell

/-- Everything the block holds. R20's state: STATUS, LEN_A, LEN_B, LEN_OUT, ERR_POS, ERR_INFO as fields, CAP_IN and CAP_OUT read from
`cfg`, CMD holding no value (R24), BUF_A, BUF_B and BUF_OUT as the cells of `mem`. The last four fields are the model's own. -/
structure State where
  /-- The parameters (R7); no step changes them. -/
  cfg : Config
  /-- STATUS (R25). -/
  status : Word
  /-- LEN_A (R29). -/
  lenA : Word
  /-- LEN_B (R30). -/
  lenB : Word
  /-- LEN_OUT (R31). -/
  lenOut : Word
  /-- ERR_POS (R32). -/
  errPos : Word
  /-- ERR_INFO (R33). -/
  errInfo : Word
  /-- The octets of BUF_A and BUF_B the host has written since reset, and the result octets in BUF_OUT (R37 to R39). -/
  mem : Memory
  /-- MODEL's own: commands completed so far; names the draw of BUF_OUT's unspecified octets (U1, U2; log 6). -/
  draws : Nat
  /-- MODEL's own: reset events so far; names the contents of unwritten octets (U4; log 4). -/
  resets : Nat
  /-- MODEL's own: the host's transactions and resets still to come, next first (R191; log 1). -/
  script : List HostEvent
  /-- MODEL's own: what the bus port has answered, newest first (R191; log 1). -/
  responses : List Response
deriving DecidableEq, Repr

/-- Why a step can stop with a fault. -/
inductive Fault where
  /-- A host read of a buffer octet nothing has written since reset, at block offset `off` (U3). Raised by the bus read
  (Machine/Bus.lean) alone, never by a command. Safe: the hardware goes on with an unspecified value; no claim can rest on it. -/
  | unwrittenOctet (off : Nat)
deriving DecidableEq, Repr

/-- Why a step can be refused. -/
inductive Refusal where
  /-- An instruction without a meaning. No arm of exec raises it: every command has its meaning. Safe. -/
  | notModelled (mnemonic : String)
  /-- The launch has `MAX_IN` outside 1 to 65536 (U12). Raised by every step of such a launch. Safe. -/
  | illegalMaxIn
  /-- The launch has a `BASE` that is no multiple of 0x80000 (R7, U13). Raised by every step of such a launch. Safe. -/
  | illegalBase
  /-- The launch has a number of bus masters other than one (R177, U16). Raised by every step of such a launch. Safe. -/
  | severalMasters
deriving DecidableEq, Repr

/-- The state after reset of a block with parameters `c` (R44): every register 0, no buffer octet written, and the host's run
empty (log 9). -/
def State.resetOf (c : Config) : State where
  cfg := c
  status := 0
  lenA := 0
  lenB := 0
  lenOut := 0
  errPos := 0
  errInfo := 0
  mem := []
  draws := 0
  resets := 0
  script := []
  responses := []

/-- The state after reset at the reference value of `MAX_IN` (R7, R44). -/
def State.reset : State := State.resetOf Config.reference

end Sys2Proof.Machine
end

