-- ==== Sys2Proof/Machine/Flags.lean ====
section
/-! DEFINITION. The status flags and the report words: STATUS (spec/10_state.md R25 to R28, R43) and ERR_INFO (R33), with the error
numbers of spec/60_exceptions.md R160. The block has no condition codes (R43). -/

namespace Sys2Proof.Machine

/-- The numeric code of an error (R160). -/
def ErrCode.number : ErrCode → BitVec 4
  | .invalidLength => 1
  | .invalidDigit => 2
  | .lengthMismatch => 3
  | .illegalOp => 4
  | .capacity => 5

/-- The number of an operand in ERR_OPND: 0 for A, 1 for B (R33). -/
def Operand.number : Operand → BitVec 1
  | .a => 0
  | .b => 1

/-- STATUS.DONE, bit 0 (R25, R26). -/
def statusDone (w : Word) : Bool := w.getLsbD 0

/-- STATUS.ERR, bit 1 (R25, R27). -/
def statusErr (w : Word) : Bool := w.getLsbD 1

/-- STATUS.ERR_CODE, bits [7:4] (R25, R28). -/
def statusCode (w : Word) : BitVec 4 := w.extractLsb' 4 4

/-- STATUS after a success: DONE 1, ERR 0, ERR_CODE 0 (R166). -/
def successStatus : Word := 0x00000001

/-- STATUS after a failure: `0x00000003 | (code << 4)` (R165). -/
def failureStatus (c : ErrCode) : Word := 0x00000003 ||| (c.number.setWidth 32 <<< 4)

/-- ERR_INFO.ERR_CHAR, bits [7:0] (R33). -/
def infoChar (w : Word) : Byte := w.extractLsb' 0 8

/-- ERR_INFO.ERR_OPND, bit 8 (R33). -/
def infoOpnd (w : Word) : BitVec 1 := w.extractLsb' 8 1

/-- ERR_INFO after a failure: `(opnd << 8) | ch` (R165). -/
def failureInfo (o : Operand) (ch : Byte) : Word := (o.number.setWidth 32 <<< 8) ||| ch.setWidth 32

end Sys2Proof.Machine
end

