-- ==== Sys2Proof/Machine/Ops.lean ====
section
/-! DEFINITION. The named operations over memory and registers, and the end of a command: the failure report, which is this
block's taking of an exception (spec/60_exceptions.md R165), and the success report beside it (R166). There is no return from an
error (R169). -/

namespace Sys2Proof.Machine

/-- Offset of BUF_A[0] (R37). -/
abbrev bufABase : Nat := 0x10000

/-- Offset of BUF_B[0] (R38). -/
abbrev bufBBase : Nat := 0x20000

/-- Offset of BUF_OUT[0] (R39). -/
abbrev bufOutBase : Nat := 0x30000

/-- The canonical form of memory: offsets strictly rising. An unlisted offset holds no value, so no entry can equal it. -/
abbrev Memory.wf (m : Memory) : Prop := m.Pairwise (fun c d => c.1 < d.1)

/-- The octet listed at offset `a`, if one is. -/
def Memory.read : Memory → Nat → Option Byte
  | [], _ => none
  | (k, b) :: m, a => if k = a then some b else Memory.read m a

/-- Store octet `v` at offset `a`, in canonical form. -/
def Memory.write : Memory → Nat → Byte → Memory
  | [], a, v => [(a, v)]
  | (k, b) :: m, a, v =>
    if a < k then (a, v) :: (k, b) :: m
    else if a = k then (a, v) :: m
    else (k, b) :: Memory.write m a v

/-- Store octets at offsets `a`, `a+1`, ... in increasing order (R67). -/
def Memory.writeAll : Memory → Nat → List Byte → Memory
  | m, _, [] => m
  | m, a, b :: bs => Memory.writeAll (m.write a b) (a + 1) bs

/-- Forget the octets at offsets `lo` to `hi - 1`: nothing has written them any more. -/
def Memory.clear (m : Memory) (lo hi : Nat) : Memory := m.filter (fun c => c.1 < lo || hi ≤ c.1)

/-- Replace the buffers' cells. -/
def State.setMem (s : State) (m : Memory) : State := { s with mem := m }

/-- Store LEN_A, the whole 32-bit value as written (R29). -/
def State.setLenA (s : State) (v : Word) : State := { s with lenA := v }

/-- Store LEN_B, the whole 32-bit value as written (R30). -/
def State.setLenB (s : State) (v : Word) : State := { s with lenB := v }

/-- The host's next transactions. -/
def State.setScript (s : State) (es : List HostEvent) : State := { s with script := es }

/-- The bus port answers `r` to the access just performed. -/
def State.respond (s : State) (r : Response) : State := { s with responses := r :: s.responses }

/-- Write the report registers together (R41: STATUS, LEN_OUT, ERR_POS, ERR_INFO). -/
def State.setReport (s : State) (status lenOut errPos errInfo : Word) : State :=
  { s with status := status, lenOut := lenOut, errPos := errPos, errInfo := errInfo }

/-- BUF_OUT at the end of a command: octets 0 up are `out`, every other one is a fresh draw (R165, R166, U1, U2). An unlisted
BUF_OUT octet is a drawn one, so the draw is made by listing only the result and advancing `draws` (log 6). -/
def State.setBufOut (s : State) (out : List Byte) : State :=
  { s with
    mem := (s.mem.clear bufOutBase (bufOutBase + s.cfg.maxOut)).writeAll bufOutBase out
    draws := s.draws + 1 }

/-- TAKING AN ERROR: the failure report of R165. STATUS gets the code, LEN_OUT 0, ERR_POS and ERR_INFO the place, and every BUF_OUT
octet becomes unspecified. Nothing else changes (R168). -/
def State.takeError (s : State) (e : CmdError) : State :=
  (s.setBufOut []).setReport (failureStatus e.code) 0 (BitVec.ofNat 32 e.pos) (failureInfo e.opnd e.ch)

/-- The success report of R166. -/
def State.takeSuccess (s : State) (out : List Byte) : State :=
  (s.setBufOut out).setReport successStatus (BitVec.ofNat 32 out.length) 0 0

/-- The end of a command (R78): one of the two reports. -/
def State.finish (s : State) : CmdResult → State
  | .done out => s.takeSuccess out
  | .raised e => s.takeError e

/-- An error found in no one operand: `raise Error(code, 0, 0, 0)`. -/
def plainError (c : ErrCode) : CmdError := ⟨c, .a, 0, 0⟩

end Sys2Proof.Machine
end

