-- ==== Sys2Proof/Machine/Bus.lean ====
section
/-! DEFINITION. The host bus port (spec/20_memory.md): the address map, the accepted accesses, and what an accepted read or write
does to every place but CMD. A write to CMD is a command, performed in Machine/Transact.lean. -/

namespace Sys2Proof.Machine

/-- The nine interface registers (R20, R23). -/
inductive Reg where
  | cmd
  | status
  | lenA
  | lenB
  | lenOut
  | errPos
  | errInfo
  | capIn
  | capOut
deriving DecidableEq, Repr

/-- What lies at a block offset (R51). A buffer place carries its index in the window, which may be beyond capacity (R58). -/
inductive Place where
  | reg (r : Reg)
  | reserved
  | bufA (i : Nat)
  | bufB (i : Nat)
  | bufOut (i : Nat)
deriving DecidableEq, Repr

/-- The size of the block's aperture: offsets 0x00000 to 0x7FFFF (R50). -/
abbrev apertureSize : Nat := 0x80000

/-- The host bus address of a block offset (R52). -/
def busAddress (c : Config) (off : Nat) : Nat := c.base + off

/-- The block offset a host bus address names, `none` outside the block's window, where the block decodes nothing (R52). -/
def blockOffset (c : Config) (addr : Nat) : Option Nat :=
  if c.base ≤ addr ∧ addr < c.base + apertureSize then some (addr - c.base) else none

/-- The offset of a register (R23). -/
def Reg.offset : Reg → Nat
  | .cmd => 0x000
  | .status => 0x004
  | .lenA => 0x008
  | .lenB => 0x00C
  | .lenOut => 0x010
  | .errPos => 0x014
  | .errInfo => 0x018
  | .capIn => 0x01C
  | .capOut => 0x020

/-- The register at an offset (R23). -/
def regAt (off : Nat) : Option Reg :=
  match off with
  | 0x000 => some .cmd
  | 0x004 => some .status
  | 0x008 => some .lenA
  | 0x00C => some .lenB
  | 0x010 => some .lenOut
  | 0x014 => some .errPos
  | 0x018 => some .errInfo
  | 0x01C => some .capIn
  | 0x020 => some .capOut
  | _ => none

/-- The address map of R51. -/
def placeOf (off : Nat) : Place :=
  if off < 0x10000 then
    match regAt off with
    | some r => .reg r
    | none => .reserved
  else if off < 0x20000 then .bufA (off - bufABase)
  else if off < 0x30000 then .bufB (off - bufBBase)
  else if off < 0x50000 then .bufOut (off - bufOutBase)
  else .reserved

/-- The accepted accesses of R54: an aligned word anywhere in the offset space, an octet inside a buffer window. -/
def accepted (off size : Nat) : Bool :=
  (size == 4 && off % 4 == 0 && off ≤ 0x7FFFC) || (size == 1 && 0x10000 ≤ off && off ≤ 0x4FFFF)

/-- The value a register read returns (R24 to R35, R59). -/
def readReg (s : State) : Reg → Word
  | .cmd => 0
  | .status => s.status
  | .lenA => s.lenA
  | .lenB => s.lenB
  | .lenOut => s.lenOut
  | .errPos => s.errPos
  | .errInfo => s.errInfo
  | .capIn => BitVec.ofNat 32 s.cfg.maxIn
  | .capOut => BitVec.ofNat 32 s.cfg.maxOut

/-- BUF_OUT[i] inside capacity, as the host reads it: a result octet, or the value drawn when the last command completed (U1, U2), or
no value while no command has completed since reset (U3). -/
def outOctet (s : State) (i : Nat) : Option Byte :=
  match s.mem.read (bufOutBase + i) with
  | some b => some b
  | none => if statusDone s.status then some (Config.drawnOctet s.draws i) else none

/-- One octet of a host read; `none` when nothing has written the octet since reset (U3). Octets beyond capacity read 0 (R58). The
register and reserved arms are total-function fillers: R54 accepts no octet there and R57 reads reserved words as 0. -/
def hostOctet (s : State) (off : Nat) : Option Byte :=
  match placeOf off with
  | .bufA i => if i < s.cfg.maxIn then s.mem.read off else some 0
  | .bufB i => if i < s.cfg.maxIn then s.mem.read off else some 0
  | .bufOut i => if i < s.cfg.maxOut then outOctet s i else some 0
  | .reg _ => some 0
  | .reserved => some 0

/-- What an accepted read finds. -/
inductive ReadResult where
  | data (v : Word)
  /-- The octet at block offset `off` has no value (U3). -/
  | unwritten (off : Nat)
deriving DecidableEq, Repr

/-- A read of `n` lanes from `off` up, little-endian: lane `k` is the octet at `off + k` (R55). -/
def readLanes (s : State) (off : Nat) : Nat → ReadResult
  | 0 => .data 0
  | n + 1 =>
    match hostOctet s off with
    | none => .unwritten off
    | some b =>
      match readLanes s (off + 1) n with
      | .unwritten o => .unwritten o
      | .data v => .data ((v <<< 8) ||| b.setWidth 32)

/-- An accepted read (R55, R57 to R59). -/
def readAt (s : State) (off size : Nat) : ReadResult :=
  match placeOf off with
  | .reg r => .data (readReg s r)
  | .reserved => .data 0
  | .bufA _ => readLanes s off size
  | .bufB _ => readLanes s off size
  | .bufOut _ => readLanes s off size

/-- One octet of a host write: stored in BUF_A or BUF_B inside capacity, ignored anywhere else (R58, R59). -/
def writeOctet (s : State) (off : Nat) (b : Byte) : State :=
  match placeOf off with
  | .bufA i => if i < s.cfg.maxIn then s.setMem (s.mem.write off b) else s
  | .bufB i => if i < s.cfg.maxIn then s.setMem (s.mem.write off b) else s
  | .bufOut _ => s
  | .reg _ => s
  | .reserved => s

/-- A write of `n` lanes from `off` up, little-endian (R55). -/
def writeLanes (s : State) (off : Nat) (v : Word) : Nat → State
  | 0 => s
  | n + 1 => writeLanes (writeOctet s off (v.setWidth 8)) (off + 1) (v >>> 8) n

/-- A write to a register that is not a command: LEN_A and LEN_B store, the read-only registers ignore it (R59). CMD holds no value
(R24). -/
def writeReg (s : State) (r : Reg) (v : Word) : State :=
  match r with
  | .cmd => s
  | .status => s
  | .lenA => s.setLenA v
  | .lenB => s.setLenB v
  | .lenOut => s
  | .errPos => s
  | .errInfo => s
  | .capIn => s
  | .capOut => s

/-- An accepted write to any place but CMD (R55, R57 to R59). -/
def writeAt (s : State) (off size : Nat) (v : Word) : State :=
  match placeOf off with
  | .reg r => writeReg s r v
  | .reserved => s
  | .bufA _ => writeLanes s off v size
  | .bufB _ => writeLanes s off v size
  | .bufOut _ => writeLanes s off v size

end Sys2Proof.Machine
end

