-- ==== Sys2Proof/Machine/Operands.lean ====
section
/-! DEFINITION. The operand forms. Every operand is implicit: the prefix of its buffer given by its length register
(spec/10_state.md R40, spec/30_encoding.md R76), read octet by octet (spec/20_memory.md R67) after the CAPACITY check
(spec/60_exceptions.md R164, R167). -/

namespace Sys2Proof.Machine

/-- `MemRead(off, 1)` of a command: the octet the host wrote at `off`, or, where it has written none since reset, the unspecified
value the octet holds (R182, U4; log 4). -/
def operandOctet (s : State) (off : Nat) : Byte :=
  match s.mem.read off with
  | some b => b
  | none => Config.unwrittenOctet s.resets off

/-- `[MemRead(base + i, 1) for i in 0 .. n-1]` (R67, R108). -/
def operandOctets (s : State) (base n : Nat) : List Byte :=
  (List.range n).map (fun i => operandOctet s (base + i))

/-- Operand A, `BUF_A[0..LEN_A)` (R40). -/
def operandA (s : State) : List Byte := operandOctets s bufABase s.lenA.toNat

/-- Operand B, `BUF_B[0..LEN_B)` (R40). -/
def operandB (s : State) : List Byte := operandOctets s bufBBase s.lenB.toNat

/-- The form of a command that uses operand A alone: CAPACITY when `LEN_A > MAX_IN` (R164), else the transformation of A. -/
def withOperandA (s : State) (f : List Byte → CmdResult) : CmdResult :=
  if s.cfg.maxIn < s.lenA.toNat then .raised (plainError .capacity) else f (operandA s)

/-- The form of XOR_HEX: CAPACITY when either length is above `MAX_IN` (R146, R164), else the transformation of A and B. -/
def withOperandsAB (s : State) (f : List Byte → List Byte → CmdResult) : CmdResult :=
  if s.cfg.maxIn < s.lenA.toNat ∨ s.cfg.maxIn < s.lenB.toNat then .raised (plainError .capacity)
  else f (operandA s) (operandB s)

end Sys2Proof.Machine
end

