-- ==== Sys2Proof/Machine/HexDecoder.lean ====
section
/-! DEFINITION. The HexDecoder family (spec/40_hex_decoder.md): HexVal, HexDecodeFn, and HEX_DECODE. -/

namespace Sys2Proof.Machine

/-- `HexVal` (R100, R101): the value of a hex digit in either case, `none` for every other octet. -/
def hexVal (c : Byte) : Option Nibble :=
  let n := c.toNat
  if 0x30 ≤ n ∧ n ≤ 0x39 then some (BitVec.ofNat 4 (n - 0x30))
  else if 0x41 ≤ n ∧ n ≤ 0x46 then some (BitVec.ofNat 4 (n - 0x41 + 10))
  else if 0x61 ≤ n ∧ n ≤ 0x66 then some (BitVec.ofNat 4 (n - 0x61 + 10))
  else none

/-- The first octet that is no hex digit, with its index, the first element having index `i` (R104). -/
def firstInvalid (i : Nat) : List Byte → Option (Nat × Byte)
  | [] => none
  | c :: s =>
    match hexVal c with
    | none => some (i, c)
    | some _ => firstInvalid (i + 1) s

/-- The value of an octet already known to be a hex digit; 0 for one that is not, which R102 never asks for. -/
def digitValue (c : Byte) : Nibble := (hexVal c).getD 0

/-- Pair assembly (R105): the first digit of a pair is the high nibble. The one-octet rest is unreachable after the length check. -/
def assemblePairs : List Byte → List Byte
  | hi :: lo :: s => (digitValue hi ++ digitValue lo) :: assemblePairs s
  | [_] => []
  | [] => []

/-- `HexDecodeFn(s, opnd)` (R102): length, then digits in order, then pairs (R103 to R107). -/
def hexDecodeFn (s : List Byte) (opnd : Operand) : CmdResult :=
  if s.length % 2 = 1 then .raised ⟨.invalidLength, opnd, 0, 0⟩
  else
    match firstInvalid 0 s with
    | some (i, c) => .raised ⟨.invalidDigit, opnd, i, c⟩
    | none => .done (assemblePairs s)

/-- HEX_DECODE (R108). -/
def execHexDecode (s : State) : Host.Outcome State Fault Refusal :=
  .next (s.finish (withOperandA s (fun a => hexDecodeFn a .a)))

end Sys2Proof.Machine
end

