-- ==== Sys2Proof/Machine/Base64Encoder.lean ====
section
/-! DEFINITION. The Base64Encoder family (spec/41_base64_encoder.md): B64Char, B64EncodeFn, B64_ENCODE and HEX_TO_B64. -/

namespace Sys2Proof.Machine

/-- The padding octet '=' (R120). -/
def padChar : Byte := 0x3D

/-- `B64Char` (R120). -/
def b64Char (v : Sextet) : Byte :=
  let n := v.toNat
  if n ≤ 25 then BitVec.ofNat 8 (0x41 + n)
  else if n ≤ 51 then BitVec.ofNat 8 (0x61 + (n - 26))
  else if n ≤ 61 then BitVec.ofNat 8 (0x30 + (n - 52))
  else if n = 62 then 0x2B
  else 0x2F

/-- The 24-bit group word `(b0 << 16) | (b1 << 8) | b2` (R122). -/
def groupWord (b0 b1 b2 : Byte) : Group :=
  (b0.setWidth 24 <<< 16) ||| (b1.setWidth 24 <<< 8) ||| b2.setWidth 24

/-- Character 0 of a group, from bits [23:18] (R123). -/
def groupChar0 (w : Group) : Byte := b64Char (w.extractLsb' 18 6)

/-- Character 1 of a group, from bits [17:12] (R123). -/
def groupChar1 (w : Group) : Byte := b64Char (w.extractLsb' 12 6)

/-- Character 2 of a group, from bits [11:6] (R123). -/
def groupChar2 (w : Group) : Byte := b64Char (w.extractLsb' 6 6)

/-- Character 3 of a group, from bits [5:0] (R123). -/
def groupChar3 (w : Group) : Byte := b64Char (w.extractLsb' 0 6)

/-- `B64EncodeFn` (R121 to R125): groups of three octets in order, a short last group padded. -/
def b64EncodeFn : List Byte → List Byte
  | [] => []
  | [b0] =>
    let w := groupWord b0 0 0
    [groupChar0 w, groupChar1 w, padChar, padChar]
  | [b0, b1] =>
    let w := groupWord b0 b1 0
    [groupChar0 w, groupChar1 w, groupChar2 w, padChar]
  | b0 :: b1 :: b2 :: rest =>
    let w := groupWord b0 b1 b2
    groupChar0 w :: groupChar1 w :: groupChar2 w :: groupChar3 w :: b64EncodeFn rest

/-- B64_ENCODE (R126). -/
def execB64Encode (s : State) : Host.Outcome State Fault Refusal :=
  .next (s.finish (withOperandA s (fun a => .done (b64EncodeFn a))))

/-- The pipeline `Base64Encoder(HexDecoder(s))` (R130): the decoded octets stay internal. -/
def hexToB64Fn (a : List Byte) : CmdResult :=
  match hexDecodeFn a .a with
  | .done mid => .done (b64EncodeFn mid)
  | .raised e => .raised e

/-- HEX_TO_B64 (R131). -/
def execHexToB64 (s : State) : Host.Outcome State Fault Refusal :=
  .next (s.finish (withOperandA s hexToB64Fn))

end Sys2Proof.Machine
end

