-- ==== Sys2Proof/Machine/FixedXor.lean ====
section
/-! DEFINITION. The FixedXor family with the hex-encode path (spec/42_fixed_xor.md): HexChr, HexEncodeFn, XorFn, XorHexFn, XOR_HEX and
HEX_ENCODE. -/

namespace Sys2Proof.Machine

/-- `HexChr` (R140): a lowercase hex digit. -/
def hexChr (v : Nibble) : Byte :=
  if v.toNat ≤ 9 then BitVec.ofNat 8 (0x30 + v.toNat) else BitVec.ofNat 8 (0x61 + (v.toNat - 10))

/-- `HexEncodeFn` (R141): two octets per input octet, high nibble first. -/
def hexEncodeFn : List Byte → List Byte
  | [] => []
  | b :: s => hexChr (b.extractLsb' 4 4) :: hexChr (b.extractLsb' 0 4) :: hexEncodeFn s

/-- `XorFn` (R142), octet by octet; R143 keeps the lengths equal. -/
def xorFn (x y : List Byte) : List Byte := List.zipWith (fun a b => a ^^^ b) x y

/-- `XorHexFn(A, B)` (R145): the length precondition on the hex strings (R143), then A decoded, then B (R144). -/
def xorHexFn (a b : List Byte) : CmdResult :=
  if a.length = b.length then
    match hexDecodeFn a .a with
    | .raised e => .raised e
    | .done x =>
      match hexDecodeFn b .b with
      | .raised e => .raised e
      | .done y => .done (hexEncodeFn (xorFn x y))
  else .raised (plainError .lengthMismatch)

/-- XOR_HEX (R146). -/
def execXorHex (s : State) : Host.Outcome State Fault Refusal :=
  .next (s.finish (withOperandsAB s xorHexFn))

/-- HEX_ENCODE (R151). -/
def execHexEncode (s : State) : Host.Outcome State Fault Refusal :=
  .next (s.finish (withOperandA s (fun a => .done (hexEncodeFn a))))

end Sys2Proof.Machine
end

