-- ==== Sys2Proof/Machine/Dispatch.lean ====
section
/-! DEFINITION. exec: one arm per command, each one direct call of its meaning (spec/30_encoding.md R78). -/

namespace Sys2Proof.Machine

def exec (i : Instr) (s : State) : Host.Outcome State Fault Refusal :=
  match i with
  | .hexDecode => Sys2Proof.Machine.execHexDecode s
  | .b64Encode => Sys2Proof.Machine.execB64Encode s
  | .hexToB64 => Sys2Proof.Machine.execHexToB64 s
  | .xorHex => Sys2Proof.Machine.execXorHex s
  | .hexEncode => Sys2Proof.Machine.execHexEncode s

end Sys2Proof.Machine
end

