-- ==== Sys2Proof/WellFormed.lean ====
section
/-! DEFINITION. What is well formed before the machine runs: an instruction as syntax, a command word as its fields, and the
configuration of a launch. -/

namespace Sys2Proof

/-- A command has no operand that could be out of range (spec/30_encoding.md R76), so each of the five is well formed. -/
def Instr.wellFormed : Instr → Bool
  | .hexDecode => true
  | .b64Encode => true
  | .hexToB64 => true
  | .xorHex => true
  | .hexEncode => true

/-- R70, R72: bits [31:4] of a command word are 0. -/
def Word.reservedClear (w : Word) : Bool := w.extractLsb' 4 28 == 0

/-- R71, R73: OP is one of 1 to 5. -/
def Word.opAssigned (w : Word) : Bool :=
  1 ≤ (w.extractLsb' 0 4).toNat && (w.extractLsb' 0 4).toNat ≤ 5

/-- A word software may write to CMD: both checks (R70 to R73). -/
def Word.wellFormedCommand (w : Word) : Bool := Word.reservedClear w && Word.opAssigned w

/-- U12: `MAX_IN` lies in 1 to 65536. -/
def Config.maxInLegal (c : Config) : Bool := 1 ≤ c.maxIn && c.maxIn ≤ 65536

/-- R7, R52: `BASE` is a multiple of 0x80000. -/
def Config.baseLegal (c : Config) : Bool := c.base % 0x80000 == 0

/-- R177, U16: one host drives the block. -/
def Config.oneMaster (c : Config) : Bool := c.masters == 1

/-- The launches the spec covers: all three checks. -/
def Config.legal (c : Config) : Bool := c.maxInLegal && c.baseLegal && c.oneMaster

end Sys2Proof
end

