-- ==== Sys2Proof/Machine/Transact.lean ====
section
/-! DEFINITION. One transaction of the host, or one reset event, as one atomic transition (spec/20_memory.md R53 to R62,
spec/30_encoding.md R78, spec/70_reset_and_hazards.md R180, R185, R191). The step function only calls `transact`. -/

namespace Sys2Proof.Machine

/-- `perform(w)` (R78): decode the CMD word and run the command; an ILLEGAL word is performed as `raise Error(ILLEGAL_OP, 0, 0, 0)`
(R77, R164), before any operand or length is looked at (R167). -/
def performCommand (w : Word) (s : State) : Host.Outcome State Fault Refusal :=
  match decode w with
  | .command i => exec i s
  | .illegal _ => .next (s.takeError (plainError .illegalOp))

/-- A write completes only after the whole command has been performed (R185). -/
def completeWrite : Host.Outcome State Fault Refusal → Host.Outcome State Fault Refusal
  | .next s => .next (s.respond .writeDone)
  | .fault f => .fault f
  | .refused r => .refused r

/-- `Write(off, size, v)` (R53): BUS_ERROR with no other effect when it is not accepted (R54, R56; log 7), a command at CMD (R24), a store
anywhere else (R59). -/
def hostWrite (s : State) (off size : Nat) (v : Word) : Host.Outcome State Fault Refusal :=
  if accepted off size then
    if placeOf off = .reg .cmd then completeWrite (performCommand v s)
    else completeWrite (.next (writeAt s off size v))
  else .next (s.respond .writeBusError)

/-- `Read(off, size)` (R53): BUS_ERROR when it is not accepted (R54, R56; log 7), else the value, with no side effect (R60). A read that
covers an octet nothing has written since reset faults (U3; log 5). -/
def hostRead (s : State) (off size : Nat) : Host.Outcome State Fault Refusal :=
  if accepted off size then
    match readAt s off size with
    | .data v => .next (s.respond (.readData v))
    | .unwritten o => .fault (.unwrittenOctet o)
  else .next (s.respond .readBusError)

/-- The reset event (R180): every register at its reset value and every buffer octet unspecified (R44, R182). The parameters stay; so do
the host's run, the answers it has had and the draws made, which are not the block's (log 10). -/
def State.takeReset (s : State) : State :=
  { State.resetOf s.cfg with
    draws := s.draws
    resets := s.resets + 1
    script := s.script
    responses := s.responses }

/-- One event of the host's run (R190, R191). An access outside the block's window is the platform's: the block decodes nothing
there (R52; log 3). -/
def performEvent (s : State) : HostEvent → Host.Outcome State Fault Refusal
  | .read addr size =>
    match blockOffset s.cfg addr with
    | some off => hostRead s off size
    | none => .next s
  | .write addr size v =>
    match blockOffset s.cfg addr with
    | some off => hostWrite s off size v
    | none => .next s
  | .reset => .next s.takeReset
  | .resetDuringCommand _ => .next s.takeReset

/-- What a legal launch does next: the host's next event (R62: one at a time, in issue order), or nothing, the block being idle and
holding its state (R179). -/
def runScript (s : State) : Host.Outcome State Fault Refusal :=
  match s.script with
  | [] => .next s
  | e :: rest => performEvent (s.setScript rest) e

/-- One step. A launch the spec does not cover is refused by name (U12, U13, U16; log 11). -/
def transact (s : State) : Host.Outcome State Fault Refusal :=
  if s.cfg.maxInLegal = false then .refused .illegalMaxIn
  else if s.cfg.baseLegal = false then .refused .illegalBase
  else if s.cfg.oneMaster = false then .refused .severalMasters
  else runScript s

end Sys2Proof.Machine
end

