-- ==== Sys2Proof/Machine/Step.lean ====
section
/-! DEFINITION. The step: the host's next event as one atomic transition. And where an instruction is placed so that the next step
runs it: a command is the host's write to CMD (spec/20_memory.md R65, spec/10_state.md R24), so the fetch place is the head of the
host's run (log 9). -/

namespace Sys2Proof.Machine

/-- One step of the machine. -/
def step (s : State) : Host.Outcome State Fault Refusal := transact s

/-- `s` with the host's next transaction the write of the word `w` (its low `nbits` bits) to CMD: `Write(0x000, 4, w)` at BASE (R70,
R79). -/
def State.withFetchWord (s : State) (nbits w : Nat) : State :=
  { s with script := .write s.cfg.base 4 (BitVec.ofNat 32 (w % 2 ^ nbits)) :: s.script }

end Sys2Proof.Machine
end

