-- ==== Sys2Proof/Machine/HostLines.lean ====
section
/-! DEFINITION. The spec's host notation (spec/30_encoding.md R79, R80) as functions that give bus transactions. Shorthand only: the
block sees the expanded transactions (R80). -/

namespace Sys2Proof.Machine

/-- `W32 <off>, v` (R79). -/
def lineW32 (c : Config) (off : Nat) (v : Word) : HostEvent := .write (busAddress c off) 4 v

/-- `W8 <off>, b` (R79). -/
def lineW8 (c : Config) (off : Nat) (b : Byte) : HostEvent := .write (busAddress c off) 1 (b.setWidth 32)

/-- `R32 <off>` (R79). -/
def lineR32 (c : Config) (off : Nat) : HostEvent := .read (busAddress c off) 4

/-- `R8 <off>` (R79). -/
def lineR8 (c : Config) (off : Nat) : HostEvent := .read (busAddress c off) 1

/-- `CMD <MNEMONIC>`: the word of R71 written to CMD (R79). -/
def lineCmd (c : Config) (i : Instr) : HostEvent := lineW32 c Reg.cmd.offset (encode i)

/-- The mnemonics of R71 and the source's function names as aliases (R79). -/
def commandNamed (name : String) : Option Instr :=
  if name = "HEX_DECODE" ∨ name = "decode" then some .hexDecode
  else if name = "B64_ENCODE" ∨ name = "encode" ∨ name = "bytes_to_base64" then some .b64Encode
  else if name = "HEX_TO_B64" ∨ name = "hex_to_base64" then some .hexToB64
  else if name = "XOR_HEX" ∨ name = "xor_hex" then some .xorHex
  else if name = "HEX_ENCODE" then some .hexEncode
  else none

/-- `W8 <off>+i, b_i` for `i` from 0 up (R80). -/
def linesW8 (c : Config) (off : Nat) : List Byte → List HostEvent
  | [] => []
  | b :: bs => lineW8 c off b :: linesW8 c (off + 1) bs

/-- `LOADA [b0, b1, ...]` (R80). -/
def loadA (c : Config) (bs : List Byte) : List HostEvent :=
  linesW8 c bufABase bs ++ [lineW32 c Reg.lenA.offset (BitVec.ofNat 32 bs.length)]

/-- `LOADB [b0, b1, ...]` (R80). -/
def loadB (c : Config) (bs : List Byte) : List HostEvent :=
  linesW8 c bufBBase bs ++ [lineW32 c Reg.lenB.offset (BitVec.ofNat 32 bs.length)]

/-- `READOUT`, where the read of LEN_OUT gives `n` (R80). -/
def readOut (c : Config) (n : Nat) : List HostEvent :=
  lineR32 c Reg.lenOut.offset :: (List.range n).map (fun i => lineR8 c (bufOutBase + i))

/-- `CHECK` (R80). -/
def checkStatus (c : Config) : HostEvent := lineR32 c Reg.status.offset

/-- The octets of a text of ASCII characters (R9, R14). -/
def octetsOf (t : String) : List Byte := t.toList.map (fun ch => BitVec.ofNat 8 ch.toNat)

end Sys2Proof.Machine
end

