-- ==== Sys2Proof/Safety.lean ====
section
/-! DEFINITION. What claims about the block use: the report of a command as a predicate, the invariant of the state, launches and
reachable states, safe steps, the host's duties, and what is observed at the end of a run (spec/70_reset_and_hazards.md R184 to
R191). -/

namespace Sys2Proof.Machine

/-- Every octet of `s` is a hex digit (R100). -/
def ValidHex (s : List Byte) : Prop := ∀ c ∈ s, hexVal c ≠ none

/-- Octet `i` of operand A (R40, R67). -/
def octetA (s : State) (i : Nat) : Byte := operandOctet s (bufABase + i)

/-- Octet `i` of operand B (R40, R67). -/
def octetB (s : State) (i : Nat) : Byte := operandOctet s (bufBBase + i)

/-- BUF_OUT[i] as the host reads it (R39). -/
def resultOctet (s : State) (i : Nat) : Option Byte := hostOctet s (bufOutBase + i)

/-- The octet of a pair of hex digits, `(HexVal(hi) << 4) | HexVal(lo)` (R105), for octets that are hex digits. -/
def pairOctet (hi lo : Byte) : Byte := ((digitValue hi).setWidth 8 <<< 4) ||| (digitValue lo).setWidth 8

/-- Octet `k` of operand A decoded (R105). -/
def decodedA (s : State) (k : Nat) : Byte := pairOctet (octetA s (2 * k)) (octetA s (2 * k + 1))

/-- Octet `k` of operand B decoded (R105). -/
def decodedB (s : State) (k : Nat) : Byte := pairOctet (octetB s (2 * k)) (octetB s (2 * k + 1))

/-- Character `k` of the Base64 encoding of the `n` octets `f 0`, `f 1`, ..., by index as in R121 to R125: group `k / 4`, of size
`r = min(3, n - 3g)`, absent octets 0, padding in the places of absent octets. R122's word is written out here, octet 0 most
significant, so that a statement in these terms also says how the machine packs. -/
def b64CharAt (f : Nat → Byte) (n k : Nat) : Byte :=
  let g := k / 4
  let r := min 3 (n - 3 * g)
  let b0 := f (3 * g)
  let b1 := if 2 ≤ r then f (3 * g + 1) else 0
  let b2 := if r = 3 then f (3 * g + 2) else 0
  let w : Group := (b0.setWidth 24 <<< 16) ||| (b1.setWidth 24 <<< 8) ||| b2.setWidth 24
  if k % 4 = 0 then b64Char (w.extractLsb' 18 6)
  else if k % 4 = 1 then b64Char (w.extractLsb' 12 6)
  else if k % 4 = 2 then (if 2 ≤ r then b64Char (w.extractLsb' 6 6) else 0x3D)
  else (if r = 3 then b64Char (w.extractLsb' 0 6) else 0x3D)

/-- Character `k` of the hex encoding of the octets `f 0`, `f 1`, ..., by index as in R141: the high nibble of octet `k / 2`, then its
low nibble. -/
def hexCharAt (f : Nat → Byte) (k : Nat) : Byte :=
  if k % 2 = 0 then hexChr ((f (k / 2)).extractLsb' 4 4) else hexChr ((f (k / 2)).extractLsb' 0 4)

/-- `s` with `e` as the host's next event. -/
def State.issue (s : State) (e : HostEvent) : State := s.setScript (e :: s.script)

/-- The failure report of R165, in the register values the host reads. -/
def FailedWith (s : State) (status pos info : Word) : Prop :=
  s.status = status ∧ s.lenOut = 0 ∧ s.errPos = pos ∧ s.errInfo = info

/-- The success report of R166 with a result of `n` octets. -/
def SucceededWith (s : State) (n : Nat) : Prop :=
  s.status = 0x00000001 ∧ s.lenOut.toNat = n ∧ s.errPos = 0 ∧ s.errInfo = 0

/-- The only values STATUS can hold (R25). -/
abbrev StatusLegal (w : Word) : Prop :=
  w = 0x00 ∨ w = 0x01 ∨ w = 0x13 ∨ w = 0x23 ∨ w = 0x33 ∨ w = 0x43 ∨ w = 0x53

/-- A listed octet lies in BUF_A or BUF_B inside capacity, or in the result `BUF_OUT[0..LEN_OUT)` (R37 to R39, R58). -/
def cellPlaced (s : State) (off : Nat) : Bool :=
  match placeOf off with
  | .bufA i => i < s.cfg.maxIn
  | .bufB i => i < s.cfg.maxIn
  | .bufOut i => i < s.lenOut.toNat
  | .reg _ => false
  | .reserved => false

/-- What every state of a legal launch keeps: memory in canonical form and inside the buffers, STATUS legal (R25, R28), a result that
fits (R31) and is listed when the last command succeeded and is empty otherwise (R165, R166), and an error place only after
INVALID_DIGIT, inside the operand (R32, R33). -/
abbrev State.Inv (s : State) : Prop :=
  s.cfg.legal = true
    ∧ s.mem.wf
    ∧ (∀ c ∈ s.mem, cellPlaced s c.1 = true)
    ∧ StatusLegal s.status
    ∧ s.lenOut.toNat ≤ s.cfg.maxOut
    ∧ (s.status = 0x01 → ∀ i < s.lenOut.toNat, s.mem.read (bufOutBase + i) ≠ none)
    ∧ (s.status ≠ 0x01 → s.lenOut = 0)
    ∧ (s.status ≠ 0x23 → s.errPos = 0 ∧ s.errInfo = 0)
    ∧ (s.status = 0x23 → s.errPos.toNat < s.cfg.maxIn)
    ∧ s.errInfo.toNat < 0x200

/-- The clean launch with parameters `c` and the host's run `es`: the state right after reset (R191). -/
def launch (c : Config) (es : List HostEvent) : State := (State.resetOf c).setScript es

/-- The states a clean launch with parameters `c` reaches: the general launch is any of these (R191). -/
inductive Reachable (c : Config) : State → Prop where
  | clean (es : List HostEvent) : Reachable c (launch c es)
  | step {s t : State} (hs : Reachable c s) (h : Sys2Proof.Machine.step s = .next t) : Reachable c t

/-- `n` steps lead from `s` to `t`, each a next state. -/
def StepsTo : Nat → State → State → Prop
  | 0, s, t => s = t
  | n + 1, s, t => ∃ u, Sys2Proof.Machine.step s = .next u ∧ StepsTo n u t

/-- A step that does not fault: the host reads no octet that holds no value (U3). -/
def SafeStep (s : State) : Prop := ∀ f, Sys2Proof.Machine.step s ≠ .fault f

/-- The duties of the host on one event (R36, R72, R190): no refused form, 0 in the reserved bits of CMD and at reserved offsets. -/
def dutifulEvent (c : Config) : HostEvent → Bool
  | .read addr size =>
    match blockOffset c addr with
    | some off => accepted off size
    | none => true
  | .write addr size v =>
    match blockOffset c addr with
    | some off =>
      accepted off size &&
        (match placeOf off with
        | .reg .cmd => Word.wellFormedCommand v
        | .reserved => v == 0
        | _ => true)
    | none => true
  | .reset => true
  | .resetDuringCommand w => Word.wellFormedCommand w

/-- What is observed at the end of a run (R191). -/
structure Observation where
  status : Word
  lenA : Word
  lenB : Word
  lenOut : Word
  errPos : Word
  errInfo : Word
  /-- The octets of BUF_A and BUF_B the host has written, by offset. -/
  written : Memory
  /-- `BUF_OUT[0..LEN_OUT)`, when STATUS is 0x00000001. -/
  result : Option (List (Option Byte))
  /-- The responses the host's reads received since the clean launch, newest first (log 18). -/
  reads : List Response
deriving DecidableEq, Repr

/-- Whether a response answers a read. -/
def Response.isRead : Response → Bool
  | .readData _ => true
  | .readBusError => true
  | .writeDone => false
  | .writeBusError => false

/-- The observation of R191 at state `s`. R191 leaves open what the record of read responses holds at a general launch. DESIGN CHOICE
(log 18): it is every read's response since the clean launch, so the observation of a run from a general launch also lists the reads
made before that launch. -/
def observe (s : State) : Observation where
  status := s.status
  lenA := s.lenA
  lenB := s.lenB
  lenOut := s.lenOut
  errPos := s.errPos
  errInfo := s.errInfo
  written := s.mem.filter (fun c => c.1 < bufOutBase)
  result := if s.status = successStatus then some ((List.range s.lenOut.toNat).map (resultOctet s)) else none
  reads := s.responses.filter Response.isRead

end Sys2Proof.Machine
end

