-- ==== Sys2Proof/Certificates/Slice0/Obligations.lean ====
section
/-! DEFINITION. The statements for the provers, from the numbered rules of spec/. `s.issue e` is `s` with `e` as the host's next
event, so a step of it performs `e` at `s`. A command's operand octets are `octetA`, `octetB`: what the host wrote, or the free value
of an octet it has not written since reset (R182), so each statement about them holds for every such value. -/

open Sys2Proof Sys2Proof.Machine

/-! ## Encoding -/

/-- R71, R77 by way of the encoder: decoding the word of a command gives the command back, through the table's numbering too, and no
other word decodes to it, so no bit of the word is dropped. -/
def Obligations.DecodeEncodeAgree : Prop :=
  ∀ i : Instr, i.wellFormed = true →
    decode (encode i) = .command i
      ∧ decodeTableWord 32 (encode i).toNat = some i
      ∧ ∀ w : Word, decode w = .command i → w = encode i

/-- R71 and R77: the word of each command, and every other word decodes to ILLEGAL. -/
def Obligations.ExactlyFiveWordsAreCommands : Prop :=
  ∀ w : Word,
    (decode w = .command .hexDecode ↔ w = 0x00000001)
      ∧ (decode w = .command .b64Encode ↔ w = 0x00000002)
      ∧ (decode w = .command .hexToB64 ↔ w = 0x00000003)
      ∧ (decode w = .command .xorHex ↔ w = 0x00000004)
      ∧ (decode w = .command .hexEncode ↔ w = 0x00000005)
      ∧ (w ≠ 0x00000001 ∧ w ≠ 0x00000002 ∧ w ≠ 0x00000003 ∧ w ≠ 0x00000004 ∧ w ≠ 0x00000005 →
          ∃ why, decode w = .illegal why)

/-- R71 to R73 on words written out from the encodings: a sanity statement. -/
def Obligations.SampleWordsDecode : Prop :=
  decode 0x00000001 = .command .hexDecode ∧ decode 0x00000002 = .command .b64Encode
    ∧ decode 0x00000003 = .command .hexToB64 ∧ decode 0x00000004 = .command .xorHex
    ∧ decode 0x00000005 = .command .hexEncode ∧ decode 0x00000000 = .illegal .illegalOpcode
    ∧ decode 0x00000006 = .illegal .illegalOpcode ∧ decode 0x0000000F = .illegal .illegalOpcode
    ∧ decode 0x00000010 = .illegal .reservedBits ∧ decode 0x80000001 = .illegal .reservedBits

/-! ## A step runs the decoded command -/

/-- R24, R78, R185: the step of a legal launch whose host writes the word `w` of command `i` to CMD is exec of `i` at the state with that
event taken, followed by the completion of the write; nothing else happens around exec. -/
def Obligations.StepRunsDecodedCommand : Prop :=
  ∀ (s : State) (w : Word) (i : Instr), s.cfg.legal = true → decode w = .command i →
    step (s.issue (.write (s.cfg.base + 0x000) 4 w)) = completeWrite (exec i s)
      ∧ step (s.withFetchWord 32 w.toNat) = completeWrite (exec i s)
      ∧ ∀ t, exec i s = .next t →
          step (s.issue (.write (s.cfg.base + 0x000) 4 w)) = .next (t.respond .writeDone)

/-- R72, R73, R164: a CMD word with a reserved bit set, or with OP 0x0 or 0x6 to 0xF, is performed as an ILLEGAL_OP failure: the report
of R165 whatever the lengths and operands are, and nothing else the host can read outside BUF_OUT changes. -/
def Obligations.IllegalWordIsPerformedAsIllegalOp : Prop :=
  ∀ (s : State) (w : Word), s.cfg.legal = true →
    (w.extractLsb' 4 28 ≠ 0 ∨ (w.extractLsb' 0 4).toNat = 0 ∨ 6 ≤ (w.extractLsb' 0 4).toNat) →
    ∃ t, step (s.issue (.write (s.cfg.base + 0x000) 4 w)) = .next t
      ∧ FailedWith t 0x00000043 0 0
      ∧ t.lenA = s.lenA ∧ t.lenB = s.lenB ∧ t.cfg = s.cfg
      ∧ t.responses = .writeDone :: s.responses
      ∧ ∀ a, (a < 0x30000 ∨ 0x30000 + s.cfg.maxOut ≤ a) → t.mem.read a = s.mem.read a

/-! ## The five commands, each with its whole rule: it always completes, with the outcome its rule gives -/

/-- R108, with R102 to R105: CAPACITY, then INVALID_LENGTH, then INVALID_DIGIT at the lowest index, else the decoded octets. -/
def Obligations.HexDecodeCompletes : Prop :=
  ∀ s : State, s.cfg.legal = true →
    ∃ t, exec .hexDecode s = .next t ∧
      (if s.cfg.maxIn < s.lenA.toNat then FailedWith t 0x00000053 0 0
      else if s.lenA.toNat % 2 = 1 then FailedWith t 0x00000013 0 0
      else
        (∀ i < s.lenA.toNat, hexVal (octetA s i) = none → (∀ j < i, hexVal (octetA s j) ≠ none) →
          FailedWith t 0x00000023 (BitVec.ofNat 32 i) ((octetA s i).setWidth 32))
        ∧ ((∀ i < s.lenA.toNat, hexVal (octetA s i) ≠ none) →
          SucceededWith t (s.lenA.toNat / 2)
            ∧ ∀ k < s.lenA.toNat / 2, ∃ hi lo : Nibble,
                hexVal (octetA s (2 * k)) = some hi ∧ hexVal (octetA s (2 * k + 1)) = some lo
                  ∧ resultOctet t k = some ((hi.setWidth 8 <<< 4) ||| lo.setWidth 8)))

/-- R126, with R121 to R125: CAPACITY and no other failure, else the Base64 characters. -/
def Obligations.B64EncodeCompletes : Prop :=
  ∀ s : State, s.cfg.legal = true →
    ∃ t, exec .b64Encode s = .next t ∧
      (if s.cfg.maxIn < s.lenA.toNat then FailedWith t 0x00000053 0 0
      else
        SucceededWith t (4 * ((s.lenA.toNat + 2) / 3))
          ∧ ∀ k < 4 * ((s.lenA.toNat + 2) / 3),
              resultOctet t k = some (b64CharAt (octetA s) s.lenA.toNat k))

/-- R131: the failures of the decoder, else the Base64 characters of the decoded octets, `4*ceil(LEN_A/6)` of them. -/
def Obligations.HexToB64Completes : Prop :=
  ∀ s : State, s.cfg.legal = true →
    ∃ t, exec .hexToB64 s = .next t ∧
      (if s.cfg.maxIn < s.lenA.toNat then FailedWith t 0x00000053 0 0
      else if s.lenA.toNat % 2 = 1 then FailedWith t 0x00000013 0 0
      else
        (∀ i < s.lenA.toNat, hexVal (octetA s i) = none → (∀ j < i, hexVal (octetA s j) ≠ none) →
          FailedWith t 0x00000023 (BitVec.ofNat 32 i) ((octetA s i).setWidth 32))
        ∧ ((∀ i < s.lenA.toNat, hexVal (octetA s i) ≠ none) →
          SucceededWith t (4 * ((s.lenA.toNat + 5) / 6))
            ∧ ∀ k < 4 * ((s.lenA.toNat + 5) / 6),
                resultOctet t k = some (b64CharAt (decodedA s) (s.lenA.toNat / 2) k)))

/-- R146, with R142 to R145: CAPACITY, LENGTH_MISMATCH, INVALID_LENGTH, INVALID_DIGIT in A, INVALID_DIGIT in B, else the XOR of the decoded
operands in lowercase hex. -/
def Obligations.XorHexCompletes : Prop :=
  ∀ s : State, s.cfg.legal = true →
    ∃ t, exec .xorHex s = .next t ∧
      (if s.cfg.maxIn < s.lenA.toNat ∨ s.cfg.maxIn < s.lenB.toNat then FailedWith t 0x00000053 0 0
      else if s.lenA ≠ s.lenB then FailedWith t 0x00000033 0 0
      else if s.lenA.toNat % 2 = 1 then FailedWith t 0x00000013 0 0
      else
        (∀ i < s.lenA.toNat, hexVal (octetA s i) = none → (∀ j < i, hexVal (octetA s j) ≠ none) →
          FailedWith t 0x00000023 (BitVec.ofNat 32 i) ((octetA s i).setWidth 32))
        ∧ ((∀ i < s.lenA.toNat, hexVal (octetA s i) ≠ none) →
            ∀ i < s.lenB.toNat, hexVal (octetB s i) = none → (∀ j < i, hexVal (octetB s j) ≠ none) →
          FailedWith t 0x00000023 (BitVec.ofNat 32 i) (0x00000100 ||| (octetB s i).setWidth 32))
        ∧ ((∀ i < s.lenA.toNat, hexVal (octetA s i) ≠ none) → (∀ i < s.lenB.toNat, hexVal (octetB s i) ≠ none) →
          SucceededWith t s.lenA.toNat
            ∧ ∀ k < s.lenA.toNat,
                resultOctet t k = some (hexCharAt (fun j => decodedA s j ^^^ decodedB s j) k)))

/-- R151, with R140 and R141: CAPACITY and no other failure, else two lowercase hex digits an octet, high nibble first. -/
def Obligations.HexEncodeCompletes : Prop :=
  ∀ s : State, s.cfg.legal = true →
    ∃ t, exec .hexEncode s = .next t ∧
      (if s.cfg.maxIn < s.lenA.toNat then FailedWith t 0x00000053 0 0
      else
        SucceededWith t (2 * s.lenA.toNat)
          ∧ ∀ k < 2 * s.lenA.toNat, resultOctet t k = some (hexCharAt (octetA s) k))

/-- R167: every CMD word reports exactly one outcome, the first of the six checks that fails, and a success when none does. -/
def Obligations.FirstFailedCheckIsReported : Prop :=
  ∀ (s : State) (w : Word), s.cfg.legal = true →
    ∃ t, performCommand w s = .next t ∧
      match decode w with
      | .illegal _ => FailedWith t 0x00000043 0 0
      | .command i =>
        let usesHex := i = .hexDecode ∨ i = .hexToB64 ∨ i = .xorHex
        let badA := (operandA s).any (fun c => hexVal c == none)
        let badB := (operandB s).any (fun c => hexVal c == none)
        if s.cfg.maxIn < s.lenA.toNat ∨ (i = .xorHex ∧ s.cfg.maxIn < s.lenB.toNat) then FailedWith t 0x00000053 0 0
        else if i = .xorHex ∧ s.lenA ≠ s.lenB then FailedWith t 0x00000033 0 0
        else if usesHex ∧ s.lenA.toNat % 2 = 1 then FailedWith t 0x00000013 0 0
        else if usesHex ∧ badA = true then
          ∃ k < s.lenA.toNat, hexVal (octetA s k) = none ∧ (∀ j < k, hexVal (octetA s j) ≠ none)
            ∧ FailedWith t 0x00000023 (BitVec.ofNat 32 k) ((octetA s k).setWidth 32)
        else if i = .xorHex ∧ badB = true then
          ∃ k < s.lenB.toNat, hexVal (octetB s k) = none ∧ (∀ j < k, hexVal (octetB s j) ≠ none)
            ∧ FailedWith t 0x00000023 (BitVec.ofNat 32 k) (0x00000100 ||| (octetB s k).setWidth 32)
        else t.status = 0x00000001 ∧ t.errPos = 0 ∧ t.errInfo = 0

/-! ## What a command leaves unchanged -/

/-- R41: the frame of HEX_DECODE, B64_ENCODE, HEX_TO_B64, XOR_HEX and HEX_ENCODE, and of an ILLEGAL word. A command writes STATUS,
LEN_OUT, ERR_POS, ERR_INFO and BUF_OUT alone: LEN_A, LEN_B, CAP_IN, CAP_OUT, every octet of BUF_A and BUF_B and every other listed octet
outside BUF_OUT read as before. What happens to the model's own fields is `CommandKeepsTheHostsRecordAndMakesOneDraw`. -/
def Obligations.CommandWritesOnlyReportAndBufOut : Prop :=
  ∀ (s t : State) (w : Word) (i : Instr), s.cfg.legal = true →
    (exec i s = .next t ∨ performCommand w s = .next t) →
    t.lenA = s.lenA ∧ t.lenB = s.lenB
      ∧ readReg t .capIn = readReg s .capIn ∧ readReg t .capOut = readReg s .capOut
      ∧ (∀ a, (a < 0x30000 ∨ 0x30000 + s.cfg.maxOut ≤ a) → t.mem.read a = s.mem.read a)
      ∧ (∀ a, (a < 0x30000 ∨ 0x30000 + s.cfg.maxOut ≤ a) → hostOctet t a = hostOctet s a)
      ∧ t.cfg = s.cfg

/-- R42: the outcome of a command is a function of MAX_IN, LEN_A and the octets of operand A, and for XOR_HEX of LEN_B and operand B. Two
states that agree on these, whatever else they hold, end with the same report and the same result octets. -/
def Obligations.OutcomeDependsOnOperandsAlone : Prop :=
  ∀ (i : Instr) (s₁ s₂ t₁ t₂ : State), s₁.cfg.legal = true → s₂.cfg.legal = true →
    s₁.cfg.maxIn = s₂.cfg.maxIn → s₁.lenA = s₂.lenA →
    (∀ k < s₁.lenA.toNat, octetA s₁ k = octetA s₂ k) →
    (i = .xorHex → s₁.lenB = s₂.lenB ∧ ∀ k < s₁.lenB.toNat, octetB s₁ k = octetB s₂ k) →
    exec i s₁ = .next t₁ → exec i s₂ = .next t₂ →
    t₁.status = t₂.status ∧ t₁.lenOut = t₂.lenOut ∧ t₁.errPos = t₂.errPos ∧ t₁.errInfo = t₂.errInfo
      ∧ ∀ k < t₁.lenOut.toNat, resultOctet t₁ k = resultOctet t₂ k

/-- The spec's own inferences "writing the same CMD word twice with no host write between gives the same state as writing it once" (R60)
and "Repeating a failed command without changing its operands fails again with the same report" (R170): same report, same result
octets, same operands. The unspecified BUF_OUT octets are drawn anew (log 6) and are not in the claim. -/
def Obligations.RepeatedCommandGivesSameOutcome : Prop :=
  ∀ (s t u : State) (w : Word), s.cfg.legal = true → performCommand w s = .next t → performCommand w t = .next u →
    u.status = t.status ∧ u.lenOut = t.lenOut ∧ u.errPos = t.errPos ∧ u.errInfo = t.errInfo
      ∧ u.lenA = t.lenA ∧ u.lenB = t.lenB
      ∧ (∀ k < t.lenOut.toNat, resultOctet u k = resultOctet t k)
      ∧ ∀ a < 0x30000, u.mem.read a = t.mem.read a

/-- The spec's own inference in R8 "So no command ever fails for want of output space": the result of every CMD word fits BUF_OUT, at
every legal MAX_IN. -/
def Obligations.ResultAlwaysFitsBufOut : Prop :=
  ∀ (s t : State) (w : Word), s.cfg.legal = true → performCommand w s = .next t →
    t.lenOut.toNat ≤ max (2 * s.cfg.maxIn) 4

/-- After any CMD word every BUF_OUT octet has a value, and one beyond the result is the free value drawn at the completion (U1, U2;
log 6), the same at every read until the next command. -/
def Obligations.EveryBufOutOctetHasAValueAfterACommand : Prop :=
  ∀ (s t : State) (w : Word), s.cfg.legal = true → performCommand w s = .next t →
    (∀ k < s.cfg.maxOut, ∃ b, resultOctet t k = some b)
      ∧ ∀ k, t.lenOut.toNat ≤ k → k < s.cfg.maxOut → resultOctet t k = some (Config.drawnOctet t.draws k)

/-- R182: a command whose operand holds octets the host has not written since reset completes and reports no error for it. Every command
gives the report and the BUF_OUT it would give had the host written the free value of that octet to it, in operand A or B; and HEX_ENCODE
shows the value. That the octet is a free value is the model's choice of the two treatments U4 offers (log 4). -/
def Obligations.UnwrittenOperandOctetIsReadWithoutError : Prop :=
  (∀ (i : Instr) (s : State) (off : Nat), s.cfg.legal = true → off < 0x30000 → s.mem.read off = none →
    ∃ t u, exec i s = .next t
      ∧ exec i (s.setMem (s.mem.write off (Config.unwrittenOctet s.resets off))) = .next u
      ∧ t.status = u.status ∧ t.lenOut = u.lenOut ∧ t.errPos = u.errPos ∧ t.errInfo = u.errInfo
      ∧ ∀ k < s.cfg.maxOut, resultOctet t k = resultOctet u k)
  ∧ ∀ (s : State) (k : Nat), s.cfg.legal = true → s.lenA.toNat ≤ s.cfg.maxIn → k < s.lenA.toNat →
    s.mem.read (0x10000 + k) = none →
    ∃ t, exec .hexEncode s = .next t ∧ t.status = 0x00000001
      ∧ resultOctet t (2 * k) = some (hexChr ((Config.unwrittenOctet s.resets (0x10000 + k)).extractLsb' 4 4))
      ∧ resultOctet t (2 * k + 1) = some (hexChr ((Config.unwrittenOctet s.resets (0x10000 + k)).extractLsb' 0 4))

/-! ## Registers -/

/-- R26: DONE is 0 after reset, every completed command sets it, a read of STATUS does not change it, and a step clears it only by a
reset. -/
def Obligations.DoneIsClearedOnlyByReset : Prop :=
  (∀ c : Config, statusDone (State.resetOf c).status = false)
    ∧ (∀ (s t : State) (w : Word), performCommand w s = .next t → statusDone t.status = true)
    ∧ (∀ s : State, s.cfg.legal = true →
        step (s.issue (.read (s.cfg.base + 0x004) 4)) = .next (s.respond (.readData s.status)))
    ∧ ∀ s t : State, step s = .next t → statusDone s.status = true → statusDone t.status = false →
        ∃ rest, s.script = .reset :: rest ∨ ∃ w, s.script = .resetDuringCommand w :: rest

/-- R27, R28: after any CMD word ERR is 1 exactly when ERR_CODE is not 0, ERR_CODE is one of 0 to 5, and the reserved bits of STATUS and
ERR_INFO read 0 (R25, R33). -/
def Obligations.StatusFieldsAfterEveryCommand : Prop :=
  ∀ (s t : State) (w : Word), performCommand w s = .next t →
    (statusErr t.status = true ↔ statusCode t.status ≠ 0)
      ∧ (statusCode t.status).toNat ≤ 5
      ∧ t.status.extractLsb' 2 2 = 0 ∧ t.status.extractLsb' 8 24 = 0
      ∧ t.errInfo.extractLsb' 9 23 = 0

/-- R29 and R30: a word write to LEN_A or LEN_B stores the whole value, whatever it is, and changes nothing else; the next read returns
it; no command changes either; both are 0 after reset; a command that uses operand A with LEN_A above MAX_IN fails with CAPACITY, XOR_HEX
with LEN_B above MAX_IN too, and every other command gives one and the same report and result at every value of LEN_B. -/
def Obligations.LengthRegistersStoreAnyValue : Prop :=
  ∀ (s : State) (v : Word), s.cfg.legal = true →
    (step (s.issue (.write (s.cfg.base + 0x008) 4 v)) = .next ({ s with lenA := v }.respond .writeDone)
      ∧ step (s.issue (.write (s.cfg.base + 0x00C) 4 v)) = .next ({ s with lenB := v }.respond .writeDone)
      ∧ step (s.issue (.read (s.cfg.base + 0x008) 4)) = .next (s.respond (.readData s.lenA))
      ∧ step (s.issue (.read (s.cfg.base + 0x00C) 4)) = .next (s.respond (.readData s.lenB)))
    ∧ (State.resetOf s.cfg).lenA = 0 ∧ (State.resetOf s.cfg).lenB = 0
    ∧ (∀ (t : State) (w : Word), performCommand w s = .next t → t.lenA = s.lenA ∧ t.lenB = s.lenB)
    ∧ (∀ i : Instr, s.cfg.maxIn < s.lenA.toNat ∨ (i = .xorHex ∧ s.cfg.maxIn < s.lenB.toNat) →
        ∃ t, exec i s = .next t ∧ FailedWith t 0x00000053 0 0)
    ∧ ∀ i : Instr, i ≠ .xorHex → ∀ t u, exec i s = .next t → exec i { s with lenB := v } = .next u →
        u = { t with lenB := v }

/-- R34 and R35: CAP_IN and CAP_OUT read as MAX_IN and max(2*MAX_IN, 4), ignore writes, and keep their values through every step, a
reset among them. -/
def Obligations.CapacityRegistersAreConstant : Prop :=
  ∀ s : State, s.cfg.legal = true →
    step (s.issue (.read (s.cfg.base + 0x01C) 4)) = .next (s.respond (.readData (BitVec.ofNat 32 s.cfg.maxIn)))
      ∧ step (s.issue (.read (s.cfg.base + 0x020) 4))
          = .next (s.respond (.readData (BitVec.ofNat 32 (max (2 * s.cfg.maxIn) 4))))
      ∧ (∀ v : Word, step (s.issue (.write (s.cfg.base + 0x01C) 4 v)) = .next (s.respond .writeDone))
      ∧ (∀ v : Word, step (s.issue (.write (s.cfg.base + 0x020) 4 v)) = .next (s.respond .writeDone))
      ∧ ∀ t, step s = .next t → t.cfg = s.cfg

/-- R24, R25, R31 to R33 as the host reads them: CMD reads 0, each report register reads its value, and the reads change nothing. -/
def Obligations.ReportRegistersReadTheirValues : Prop :=
  ∀ s : State, s.cfg.legal = true →
    step (s.issue (.read (s.cfg.base + 0x000) 4)) = .next (s.respond (.readData 0x00000000))
      ∧ step (s.issue (.read (s.cfg.base + 0x004) 4)) = .next (s.respond (.readData s.status))
      ∧ step (s.issue (.read (s.cfg.base + 0x010) 4)) = .next (s.respond (.readData s.lenOut))
      ∧ step (s.issue (.read (s.cfg.base + 0x014) 4)) = .next (s.respond (.readData s.errPos))
      ∧ step (s.issue (.read (s.cfg.base + 0x018) 4)) = .next (s.respond (.readData s.errInfo))

/-- A write to STATUS, LEN_OUT, ERR_POS or ERR_INFO is ignored (R25, R31, R32, R33, R59). -/
def Obligations.ReportRegistersIgnoreWrites : Prop :=
  ∀ (s : State) (v : Word), s.cfg.legal = true →
    step (s.issue (.write (s.cfg.base + 0x004) 4 v)) = .next (s.respond .writeDone)
      ∧ step (s.issue (.write (s.cfg.base + 0x010) 4 v)) = .next (s.respond .writeDone)
      ∧ step (s.issue (.write (s.cfg.base + 0x014) 4 v)) = .next (s.respond .writeDone)
      ∧ step (s.issue (.write (s.cfg.base + 0x018) 4 v)) = .next (s.respond .writeDone)

/-! ## The bus -/

/-- R54: an access inside the block's window is accepted exactly in the two forms of the rule. An accepted write completes, an accepted
read answers data or meets an octet nothing has written (log 5), neither answers BUS_ERROR; every other access answers BUS_ERROR. -/
def Obligations.AcceptedExactlyInTheTwoForms : Prop :=
  ∀ (s : State) (off size : Nat) (v : Word), s.cfg.legal = true → off < 0x80000 →
    if (size = 4 ∧ off % 4 = 0 ∧ off ≤ 0x7FFFC) ∨ (size = 1 ∧ 0x10000 ≤ off ∧ off ≤ 0x4FFFF) then
      (∃ t, step (s.issue (.write (s.cfg.base + off) size v)) = .next t ∧ t.responses = .writeDone :: s.responses)
        ∧ ((∃ d, step (s.issue (.read (s.cfg.base + off) size)) = .next (s.respond (.readData d)))
          ∨ ∃ o, step (s.issue (.read (s.cfg.base + off) size)) = .fault (.unwrittenOctet o))
    else
      (∃ t, step (s.issue (.write (s.cfg.base + off) size v)) = .next t ∧ t.responses = .writeBusError :: s.responses)
        ∧ ∃ t, step (s.issue (.read (s.cfg.base + off) size)) = .next t ∧ t.responses = .readBusError :: s.responses

/-- R56, R172: a refused access changes nothing but the response it gets: no register, octet or status field, and no command starts. The
response is the treatment log 7 takes of the two U5 offers. -/
def Obligations.RefusedAccessHasNoEffect : Prop :=
  ∀ (s : State) (off size : Nat) (v : Word), s.cfg.legal = true → off < 0x80000 →
    ¬ ((size = 4 ∧ off % 4 = 0 ∧ off ≤ 0x7FFFC) ∨ (size = 1 ∧ 0x10000 ≤ off ∧ off ≤ 0x4FFFF)) →
    step (s.issue (.write (s.cfg.base + off) size v)) = .next (s.respond .writeBusError)
      ∧ step (s.issue (.read (s.cfg.base + off) size)) = .next (s.respond .readBusError)

/-- R57 (and R36): an accepted read of a reserved offset returns 0, an accepted write there is ignored. -/
def Obligations.ReservedOffsetsReadZeroIgnoreWrites : Prop :=
  ∀ (s : State) (off : Nat) (v : Word), s.cfg.legal = true → off % 4 = 0 →
    ((0x024 ≤ off ∧ off ≤ 0x0FFFC) ∨ (0x50000 ≤ off ∧ off ≤ 0x7FFFC)) →
    step (s.issue (.read (s.cfg.base + off) 4)) = .next (s.respond (.readData 0))
      ∧ step (s.issue (.write (s.cfg.base + off) 4 v)) = .next (s.respond .writeDone)

/-- R55 on reads: in a buffer window, an octet read at any offset whose octet has a value gives that octet, in bits [7:0] with zeros above
(the zeros are the model's convention, log 17), whatever its neighbours hold; a word read at an aligned offset whose four octets have
values gives the four, octet `off + k` in bits [8k+7:8k]. -/
def Obligations.WordReadIsFourOctetReads : Prop :=
  ∀ (s : State) (off : Nat), s.cfg.legal = true → 0x10000 ≤ off →
    (off ≤ 0x4FFFF → ∀ b : Byte, hostOctet s off = some b →
      step (s.issue (.read (s.cfg.base + off) 1)) = .next (s.respond (.readData (b.setWidth 32))))
    ∧ (off % 4 = 0 → off ≤ 0x4FFFC → ∀ b0 b1 b2 b3 : Byte,
        hostOctet s off = some b0 → hostOctet s (off + 1) = some b1 → hostOctet s (off + 2) = some b2 →
        hostOctet s (off + 3) = some b3 →
        step (s.issue (.read (s.cfg.base + off) 4))
          = .next (s.respond (.readData (b0.setWidth 32 ||| (b1.setWidth 32 <<< 8) ||| (b2.setWidth 32 <<< 16)
              ||| (b3.setWidth 32 <<< 24)))))

/-- R55 and R59 on writes: a word write stores lane `k`, bits [8k+7:8k], in the octet at `off + k`, an octet write stores bits [7:0] in the
one octet, both in BUF_A and BUF_B inside capacity only; no register changes and every other octet reads as before. -/
def Obligations.BufferWriteStoresItsLanes : Prop :=
  ∀ (s : State) (off size : Nat) (v : Word), s.cfg.legal = true → 0x10000 ≤ off →
    ((size = 4 ∧ off % 4 = 0 ∧ off ≤ 0x4FFFC) ∨ (size = 1 ∧ off ≤ 0x4FFFF)) →
    ∃ t, step (s.issue (.write (s.cfg.base + off) size v)) = .next t
      ∧ (∀ k < size, ((0x10000 ≤ off + k ∧ off + k < 0x10000 + s.cfg.maxIn)
            ∨ (0x20000 ≤ off + k ∧ off + k < 0x20000 + s.cfg.maxIn)) →
          hostOctet t (off + k) = some (v.extractLsb' (8 * k) 8))
      ∧ (∀ a, (a < off ∨ off + size ≤ a
            ∨ ¬ ((0x10000 ≤ a ∧ a < 0x10000 + s.cfg.maxIn) ∨ (0x20000 ≤ a ∧ a < 0x20000 + s.cfg.maxIn))) →
          t.mem.read a = s.mem.read a ∧ hostOctet t a = hostOctet s a)
      ∧ t = { s with mem := t.mem, responses := .writeDone :: s.responses }

/-- R58: an octet at or above its buffer's capacity reads 0 and ignores writes. A word that straddles the end is the four octets, lane by
lane (`WordReadIsFourOctetReads`, `BufferWriteStoresItsLanes`, with the octets beyond capacity as here). -/
def Obligations.BeyondCapacityReadsZeroIgnoresWrites : Prop :=
  ∀ (s : State) (off : Nat) (v : Word), s.cfg.legal = true →
    ((0x10000 + s.cfg.maxIn ≤ off ∧ off < 0x20000) ∨ (0x20000 + s.cfg.maxIn ≤ off ∧ off < 0x30000)
      ∨ (0x30000 + s.cfg.maxOut ≤ off ∧ off < 0x50000)) →
    hostOctet s off = some 0
      ∧ step (s.issue (.read (s.cfg.base + off) 1)) = .next (s.respond (.readData 0))
      ∧ step (s.issue (.write (s.cfg.base + off) 1 v)) = .next (s.respond .writeDone)

/-- R39, R59: a host write to the BUF_OUT window, of an octet or a word, is ignored. -/
def Obligations.HostWritesToBufOutAreIgnored : Prop :=
  ∀ (s : State) (off size : Nat) (v : Word), s.cfg.legal = true → 0x30000 ≤ off →
    ((size = 4 ∧ off % 4 = 0 ∧ off ≤ 0x4FFFC) ∨ (size = 1 ∧ off ≤ 0x4FFFF)) →
    step (s.issue (.write (s.cfg.base + off) size v)) = .next (s.respond .writeDone)

/-- R60: a read changes no state: whatever it answers, the state after it is the state before with that answer. -/
def Obligations.ReadsHaveNoSideEffect : Prop :=
  ∀ (s t : State) (addr size : Nat), step (s.issue (.read addr size)) = .next t →
    t = s ∨ ∃ r, t = s.respond r

/-- U3 (log 5): a host read that covers a buffer octet nothing has written since reset faults, naming the first such octet; right after
reset every octet of the three buffers is one. -/
def Obligations.HostReadOfUnwrittenOctetFaults : Prop :=
  (∀ (s : State) (off size k : Nat), s.cfg.legal = true → 0x10000 ≤ off →
    ((size = 4 ∧ off % 4 = 0 ∧ off ≤ 0x4FFFC) ∨ (size = 1 ∧ off ≤ 0x4FFFF)) →
    k < size → hostOctet s (off + k) = none → (∀ j < k, hostOctet s (off + j) ≠ none) →
    step (s.issue (.read (s.cfg.base + off) size)) = .fault (.unwrittenOctet (off + k)))
  ∧ ∀ c : Config, c.legal = true →
      (∀ i < c.maxIn, hostOctet (State.resetOf c) (0x10000 + i) = none ∧ hostOctet (State.resetOf c) (0x20000 + i) = none)
        ∧ ∀ i < c.maxOut, hostOctet (State.resetOf c) (0x30000 + i) = none

/-- The only way a step of the model faults, in any state: the host reads an octet that has no value (U3; log 5). That no command, no
refused access and no write faults is the model's choice: U4, U5 and U8 offer a fault beside the treatment taken (log 4, log 7,
log 14). -/
def Obligations.OnlyUnwrittenHostReadsFault : Prop :=
  ∀ (s : State) (f : Fault), step s = .fault f →
    ∃ (off size o : Nat) (rest : List HostEvent),
      s.script = .read (s.cfg.base + off) size :: rest ∧ accepted off size = true
        ∧ f = .unwrittenOctet o ∧ off ≤ o ∧ o < off + size ∧ hostOctet s o = none

/-- R52: the block decodes nothing outside `BASE .. BASE + 0x7FFFF`: an access there changes nothing (DEDUCED, log 3). -/
def Obligations.AccessOutsideTheWindowHasNoEffect : Prop :=
  ∀ (s : State) (addr size : Nat) (v : Word), s.cfg.legal = true →
    (addr < s.cfg.base ∨ s.cfg.base + 0x80000 ≤ addr) →
    step (s.issue (.read addr size)) = .next s ∧ step (s.issue (.write addr size v)) = .next s

/-! ## Reset, launch, and what every step keeps -/

/-- R181 (and R44): the register values after reset, at every MAX_IN; State.reset is the reference block. -/
def Obligations.ResetValuesOfEveryRegister : Prop :=
  (∀ c : Config,
    readReg (State.resetOf c) .cmd = 0 ∧ readReg (State.resetOf c) .status = 0 ∧ readReg (State.resetOf c) .lenA = 0
      ∧ readReg (State.resetOf c) .lenB = 0 ∧ readReg (State.resetOf c) .lenOut = 0
      ∧ readReg (State.resetOf c) .errPos = 0 ∧ readReg (State.resetOf c) .errInfo = 0
      ∧ readReg (State.resetOf c) .capIn = BitVec.ofNat 32 c.maxIn
      ∧ readReg (State.resetOf c) .capOut = BitVec.ofNat 32 (max (2 * c.maxIn) 4))
  ∧ (∀ off : Nat, 0x024 ≤ off → off ≤ 0x0FC → readAt State.reset off 4 = .data 0)
  ∧ readReg State.reset .capIn = 0x00001000 ∧ readReg State.reset .capOut = 0x00002000

/-- R180: a reset puts every register at its reset value and makes every buffer octet unspecified; one that arrives during a CMD write
leaves the same state, whatever the word, with no completion of the write; and no other step resets the block, as the model's count of
resets (log 4) measures it: the two reset events add one to it. What a reset does to the model's own fields, the count of resets and the
draws, the host's list and the responses, is the model's choice (log 4, log 10). -/
def Obligations.ResetEventPutsTheResetState : Prop :=
  (∀ s : State, s.cfg.legal = true →
    ∃ t, step (s.issue .reset) = .next t
      ∧ (∀ w : Word, step (s.issue (.resetDuringCommand w)) = .next t)
      ∧ (∀ r : Reg, readReg t r = readReg (State.resetOf s.cfg) r)
      ∧ (∀ i < s.cfg.maxIn, hostOctet t (0x10000 + i) = none ∧ hostOctet t (0x20000 + i) = none)
      ∧ (∀ i < s.cfg.maxOut, hostOctet t (0x30000 + i) = none)
      ∧ t.cfg = s.cfg ∧ t.resets = s.resets + 1 ∧ t.draws = s.draws
      ∧ t.script = s.script ∧ t.responses = s.responses)
  ∧ ∀ s t : State, step s = .next t → t.resets ≠ s.resets →
      ∃ rest, s.script = .reset :: rest ∨ ∃ w, s.script = .resetDuringCommand w :: rest

/-- R183, R179: with no transaction of the host the block is idle and holds its state; it starts no command by itself. -/
def Obligations.IdleBlockHoldsItsState : Prop :=
  ∀ s : State, s.cfg.legal = true → s.script = [] → step s = .next s

/-- U12, U13, U16 (log 11): a launch with MAX_IN outside 1 to 65536, with a BASE that is no multiple of 0x80000, or with a number of bus
masters other than one is refused by name at every step. -/
def Obligations.IllegalLaunchIsRefused : Prop :=
  ∀ s : State,
    (s.cfg.maxIn = 0 ∨ 65536 < s.cfg.maxIn → step s = .refused .illegalMaxIn)
      ∧ (1 ≤ s.cfg.maxIn ∧ s.cfg.maxIn ≤ 65536 ∧ s.cfg.base % 0x80000 ≠ 0 → step s = .refused .illegalBase)
      ∧ (1 ≤ s.cfg.maxIn ∧ s.cfg.maxIn ≤ 65536 ∧ s.cfg.base % 0x80000 = 0 ∧ s.cfg.masters ≠ 1 →
          step s = .refused .severalMasters)

/-- The spec's own inference in R189 "a CMD write always completes, so no command can hang the host" (with R185): in every state and for
every word, the step is a next state, with the completion as its answer and DONE set. -/
def Obligations.EveryCmdWriteCompletes : Prop :=
  ∀ (s : State) (w : Word), s.cfg.legal = true →
    ∃ t, step (s.issue (.write (s.cfg.base + 0x000) 4 w)) = .next t
      ∧ t.responses = .writeDone :: s.responses ∧ statusDone t.status = true

/-- The spec's own inference R187: the result and report of a command stay unchanged through every step but a CMD write or a reset. -/
def Obligations.ResultLastsUntilNextCommandOrReset : Prop :=
  ∀ (s t : State) (e : HostEvent) (rest : List HostEvent), step s = .next t → s.script = e :: rest →
    e ≠ .reset → (∀ w, e ≠ .resetDuringCommand w) → (∀ w, e ≠ .write s.cfg.base 4 w) →
    t.status = s.status ∧ t.lenOut = s.lenOut ∧ t.errPos = s.errPos ∧ t.errInfo = s.errInfo
      ∧ (∀ k < s.cfg.maxOut, resultOctet t k = resultOctet s k)

/-- The invariant of the model (`State.Inv`: memory in canonical form and inside the buffers, STATUS one of R25's values, the result fits
and is listed, an error place only after INVALID_DIGIT): every step from a state that meets it, reachable or not, keeps it. -/
def Obligations.StepKeepsInv : Prop :=
  ∀ s t : State, s.Inv → step s = .next t → t.Inv

/-- The state after reset meets the invariant, at every legal configuration. -/
def Obligations.ResetMeetsInv : Prop :=
  State.reset.Inv ∧ ∀ c : Config, c.legal = true → (State.resetOf c).Inv

/-- Every state a legal clean launch reaches, whatever the host does, meets the invariant and keeps the launch's parameters; so STATUS
holds one of R25's seven values there, and codes 6 to 15 never (U10). -/
def Obligations.ReachableStatesMeetInv : Prop :=
  ∀ (c : Config) (s : State), c.legal = true → Reachable c s → s.Inv ∧ s.cfg = c ∧ (statusCode s.status).toNat ≤ 5

/-! ## Laws of the transformations -/

/-- R100: the value `v` belongs to the digits of R100's three ranges and to no other octet: `'0'` to `'9'` for 0 to 9, and for 10 to 15
`'A'` to `'F'` and `'a'` to `'f'` alike (R101). -/
def Obligations.HexDigitsAndTheirValues : Prop :=
  ∀ (c : Byte) (v : Nibble),
    hexVal c = some v ↔
      (v.toNat ≤ 9 ∧ c.toNat = 0x30 + v.toNat)
        ∨ (10 ≤ v.toNat ∧ (c.toNat + 10 = 0x41 + v.toNat ∨ c.toNat + 10 = 0x61 + v.toNat))

/-- R120: character `v` is the `v`-th of `A-Z`, `a-z`, `0-9`, `+`, `/` in that concatenated order, and the padding octet, as the encoding
of one octet shows it, is `'='`, which is none of them. -/
def Obligations.Base64AlphabetInOrder : Prop :=
  (∀ v : Sextet,
    ((List.range 26).map (fun n => 0x41 + n) ++ (List.range 26).map (fun n => 0x61 + n)
        ++ (List.range 10).map (fun n => 0x30 + n) ++ [0x2B, 0x2F])[v.toNat]? = some (b64Char v).toNat
      ∧ b64Char v ≠ 0x3D)
  ∧ ∀ b : Byte, (b64EncodeFn [b]).drop 2 = [0x3D, 0x3D]

/-- R140: the hex character of a value is the lowercase digit of that value, never an uppercase one. -/
def Obligations.HexChrIsTheLowercaseDigit : Prop :=
  ∀ v : Nibble,
    (hexChr v).toNat = (if v.toNat ≤ 9 then 0x30 + v.toNat else 0x61 + (v.toNat - 10))
      ∧ hexVal (hexChr v) = some v ∧ ((hexChr v).toNat < 0x41 ∨ 0x5A < (hexChr v).toNat)

/-- The spec's own inference R107: a decode that succeeds gives exactly `len(s)/2` octets, octet `k` from octets `2k` and `2k+1`; it
succeeds exactly when the length is even and every octet is a digit; otherwise it raises and gives none. -/
def Obligations.HexDecodeFnIsCompleteOrRaises : Prop :=
  ∀ (s : List Byte) (o : Operand),
    ((∃ out, hexDecodeFn s o = .done out) ↔ (s.length % 2 = 0 ∧ ValidHex s))
      ∧ (∀ out, hexDecodeFn s o = .done out → out.length = s.length / 2
          ∧ ∀ (k : Nat) (h : 2 * k + 1 < s.length), out[k]? = some (pairOctet s[2 * k] s[2 * k + 1]))
      ∧ (s.length % 2 = 1 → hexDecodeFn s o = .raised ⟨.invalidLength, o, 0, 0⟩)

/-- The spec's own inference R110, at the level of commands: HEX_ENCODE of an operand of at most MAX_IN / 2 octets, then HEX_DECODE in any
state whose operand A is that result, gives the operand back. -/
def Obligations.HexEncodeThenHexDecodeIsIdentity : Prop :=
  ∀ s t u : State, s.cfg.legal = true → u.cfg = s.cfg → 2 * s.lenA.toNat ≤ s.cfg.maxIn →
    exec .hexEncode s = .next t →
    u.lenA = t.lenOut → (∀ k < t.lenOut.toNat, resultOctet t k = some (octetA u k)) →
    ∃ v, exec .hexDecode u = .next v ∧ v.status = 0x00000001 ∧ v.lenOut = s.lenA
      ∧ ∀ k < s.lenA.toNat, resultOctet v k = some (octetA s k)

/-- The spec's own inference R127: the length law of the Base64 encoding. -/
def Obligations.Base64LengthLaw : Prop :=
  ∀ b : List Byte, (b64EncodeFn b).length = 4 * ((b.length + 2) / 3) ∧ (b64EncodeFn b).length % 4 = 0

/-- The spec's own inference R128: the padding law, and no '=' anywhere but in the last one or two places. -/
def Obligations.Base64PaddingLaw : Prop :=
  ∀ (b : List Byte) (k : Nat), k < (b64EncodeFn b).length →
    ((b64EncodeFn b)[k]? = some 0x3D ↔
      ((b.length % 3 = 1 ∧ (b64EncodeFn b).length ≤ k + 2) ∨ (b.length % 3 = 2 ∧ (b64EncodeFn b).length ≤ k + 1)))

/-- The spec's own inference R129: the 65 octets the Base64 encoding can hold. -/
def Obligations.Base64OutputAlphabet : Prop :=
  ∀ b : List Byte, ∀ c ∈ b64EncodeFn b,
    (0x41 ≤ c.toNat ∧ c.toNat ≤ 0x5A) ∨ (0x61 ≤ c.toNat ∧ c.toNat ≤ 0x7A) ∨ (0x30 ≤ c.toNat ∧ c.toNat ≤ 0x39)
      ∨ c = 0x2B ∨ c = 0x2F ∨ c = 0x3D

/-- The output of HEX_ENCODE and XOR_HEX is lowercase hex whatever the case of the inputs (R140; the spec's own inference R147). -/
def Obligations.HexOutputIsLowercase : Prop :=
  ∀ (i : Instr) (s t : State) (k : Nat), s.cfg.legal = true → (i = .hexEncode ∨ i = .xorHex) → exec i s = .next t →
    k < t.lenOut.toNat →
    ∃ b, resultOctet t k = some b
      ∧ ((0x30 ≤ b.toNat ∧ b.toNat ≤ 0x39) ∨ (0x61 ≤ b.toNat ∧ b.toNat ≤ 0x66))

/-- The spec's own inference R148: XOR with the same second operand twice gives the first operand back, as decoded octets, for all valid
operands of equal even length; and as octets when the first is lowercase. -/
def Obligations.XorHexInvolution : Prop :=
  ∀ h₁ h₂ : List Byte, h₁.length = h₂.length → h₁.length % 2 = 0 → ValidHex h₁ → ValidHex h₂ →
    ∃ x y, xorHexFn h₁ h₂ = .done x ∧ xorHexFn x h₂ = .done y
      ∧ hexDecodeFn y .a = hexDecodeFn h₁ .a
      ∧ ((∀ c ∈ h₁, c.toNat < 0x41 ∨ 0x46 < c.toNat) → y = h₁)

/-- The spec's own inference R149: with both operands valid, XOR_HEX is symmetric as octets; with unequal lengths both orders raise the
same LENGTH_MISMATCH. -/
def Obligations.XorHexSymmetry : Prop :=
  ∀ h₁ h₂ : List Byte,
    (h₁.length = h₂.length → h₁.length % 2 = 0 → ValidHex h₁ → ValidHex h₂ →
      ∃ x, xorHexFn h₁ h₂ = .done x ∧ xorHexFn h₂ h₁ = .done x)
    ∧ (h₁.length ≠ h₂.length →
      xorHexFn h₁ h₂ = .raised ⟨.lengthMismatch, .a, 0, 0⟩ ∧ xorHexFn h₂ h₁ = .raised ⟨.lengthMismatch, .a, 0, 0⟩)

/-! ## The host's side -/

/-- R186 and R39 by way of `SafeStep`: no write, command, reset or register read of a legal launch faults, and after a success neither does
the read of a result octet, which gives that octet. That no write and no command faults is the model's choice: U4, U5 and U8 offer a
fault beside the treatment taken (log 4, log 7, log 14). -/
def Obligations.ReadingTheResultAfterSuccessIsSafe : Prop :=
  ∀ s : State, s.Inv →
    (∀ (addr size : Nat) (v : Word), SafeStep (s.issue (.write addr size v)))
      ∧ (∀ e : HostEvent, (e = .reset ∨ ∃ w, e = .resetDuringCommand w) → SafeStep (s.issue e))
      ∧ (∀ r : Reg, SafeStep (s.issue (.read (s.cfg.base + r.offset) 4)))
      ∧ (s.status = 0x00000001 → ∀ k < s.lenOut.toNat, ∃ b, resultOctet s k = some b
          ∧ step (s.issue (.read (s.cfg.base + (0x30000 + k)) 1)) = .next (s.respond (.readData (b.setWidth 32))))

/-- R190's duties by way of `dutifulEvent`: an event a dutiful host issues never draws BUS_ERROR, and no command of one ends in
ILLEGAL_OP: no step takes STATUS to 0x43, and after its word write to CMD STATUS is not 0x43, whatever it was before. That a refused
access is a response and a write to a reserved offset no fault are the model's choices (log 7, log 14). -/
def Obligations.DutifulHostDrawsNoBusErrorAndNoIllegalOp : Prop :=
  ∀ (s t : State) (e : HostEvent), s.Inv → dutifulEvent s.cfg e = true → step (s.issue e) = .next t →
    t.responses.count .readBusError = s.responses.count .readBusError
      ∧ t.responses.count .writeBusError = s.responses.count .writeBusError
      ∧ (s.status ≠ 0x00000043 → t.status ≠ 0x00000043)
      ∧ ∀ w : Word, e = .write (s.cfg.base + 0x000) 4 w → t.status ≠ 0x00000043

/-- R191: the observation at the end of a run says nothing of the unspecified octets: it is the same whatever the draws were and whatever
the unwritten octets hold (the model's counters that name them, log 4 and log 6). -/
def Obligations.ObservationSaysNothingOfUnspecifiedOctets : Prop :=
  ∀ (s : State) (d r : Nat), s.Inv → observe { s with draws := d, resets := r } = observe s

/-- R80 with R184: the lines LOADA expands to, in any legal state and with anything after them, put the octets into operand A, LEN_A to
their number, and leave operand B's registers, the report and the rest of the host's run as they were. -/
def Obligations.LoadaPutsItsOctetsIntoOperandA : Prop :=
  ∀ (s : State) (bs : List Byte) (rest : List HostEvent), s.cfg.legal = true → bs.length ≤ s.cfg.maxIn →
    s.script = loadA s.cfg bs ++ rest →
    ∃ t, StepsTo (bs.length + 1) s t
      ∧ operandA t = bs ∧ t.lenA.toNat = bs.length ∧ t.script = rest
      ∧ t.lenB = s.lenB
      ∧ t.status = s.status ∧ t.lenOut = s.lenOut ∧ t.errPos = s.errPos ∧ t.errInfo = s.errInfo
      ∧ ∀ a, (a < 0x10000 ∨ 0x10000 + bs.length ≤ a) → t.mem.read a = s.mem.read a

/-! ## The model's own fields -/

/-- What a command, or a CMD word that is none, does to the fields of State that are not the spec's: it keeps the host's list and
responses (log 1) and the count of resets (log 4), and makes one draw of the unspecified BUF_OUT octets (log 6). All are DESIGN CHOICE. -/
def Obligations.CommandKeepsTheHostsRecordAndMakesOneDraw : Prop :=
  ∀ (s t : State) (w : Word) (i : Instr), (exec i s = .next t ∨ performCommand w s = .next t) →
    t.script = s.script ∧ t.responses = s.responses ∧ t.resets = s.resets ∧ t.draws = s.draws + 1

/-! ## The host's side, operand B -/

/-- R80 with R184, R30 and R38: the lines LOADB expands to, in any legal state and with anything after them, put the octets into operand
B, LEN_B to their number, and leave LEN_A, the report and every octet outside those of BUF_B they write, operand A's among them, as they
were. -/
def Obligations.LoadbPutsItsOctetsIntoOperandB : Prop :=
  ∀ (s : State) (bs : List Byte) (rest : List HostEvent), s.cfg.legal = true → bs.length ≤ s.cfg.maxIn →
    s.script = loadB s.cfg bs ++ rest →
    ∃ t, StepsTo (bs.length + 1) s t
      ∧ operandB t = bs ∧ t.lenB.toNat = bs.length ∧ t.script = rest
      ∧ t.lenA = s.lenA
      ∧ t.status = s.status ∧ t.lenOut = s.lenOut ∧ t.errPos = s.errPos ∧ t.errInfo = s.errInfo
      ∧ ∀ a, (a < 0x20000 ∨ 0x20000 + bs.length ≤ a) → t.mem.read a = s.mem.read a
end

