-- ==== Sys2Proof/Laws/Memory.lean ====
section
/-! SUPPORT. Memory: read after write, what a write and a clear leave alone, and that every memory operation keeps the canonical
form. -/

namespace Sys2Proof.Machine

@[simp] theorem Memory.read_nil (a : Nat) : Memory.read [] a = none := rfl

@[simp] theorem Memory.write_read_same (m : Memory) (a : Nat) (v : Byte) : (m.write a v).read a = some v := by
  induction m with
  | nil => simp [Memory.write, Memory.read]
  | cons c m ih =>
    obtain ⟨k, b⟩ := c
    simp only [Memory.write]
    split
    · simp [Memory.read]
    · split
      · simp [Memory.read]
      · rename_i h1 h2
        have h2' : k ≠ a := fun h => h2 h.symm
        simp [Memory.read, ih, h2']

theorem Memory.write_read_other (m : Memory) {a x : Nat} (v : Byte) (h : x ≠ a) : (m.write a v).read x = m.read x := by
  induction m with
  | nil => simp [Memory.write, Memory.read, h.symm]
  | cons c m ih =>
    obtain ⟨k, b⟩ := c
    simp only [Memory.write]
    split
    · simp [Memory.read, h.symm]
    · split
      · rename_i h1 h2
        subst h2
        simp [Memory.read, h.symm]
      · simp [Memory.read, ih]

theorem Memory.mem_write {m : Memory} {a : Nat} {v : Byte} {c : Host.Cell} (h : c ∈ m.write a v) : c = (a, v) ∨ c ∈ m := by
  induction m with
  | nil => simpa [Memory.write] using h
  | cons d m ih =>
    obtain ⟨k, b⟩ := d
    simp only [Memory.write] at h
    split at h
    · simpa using h
    · split at h
      · rcases List.mem_cons.1 h with h | h
        · exact .inl h
        · exact .inr (List.mem_cons_of_mem _ h)
      · rcases List.mem_cons.1 h with h | h
        · exact .inr (h ▸ List.mem_cons_self)
        · exact (ih h).imp id (List.mem_cons_of_mem _)

theorem Memory.write_keeps_wf {m : Memory} (h : m.wf) (a : Nat) (v : Byte) : (m.write a v).wf := by
  induction m with
  | nil => simp [Memory.write]
  | cons d m ih =>
    obtain ⟨k, b⟩ := d
    obtain ⟨hk, hm⟩ := List.pairwise_cons.1 h
    simp only [Memory.write]
    split
    · rename_i hak
      refine List.pairwise_cons.2 ⟨fun c hc => ?_, h⟩
      rcases List.mem_cons.1 hc with rfl | hc
      · exact hak
      · exact lt_trans hak (hk c hc)
    · split
      · rename_i _ hak
        subst hak
        exact List.pairwise_cons.2 ⟨hk, hm⟩
      · rename_i h1 h2
        refine List.pairwise_cons.2 ⟨fun c hc => ?_, ih hm⟩
        rcases Memory.mem_write hc with rfl | hc
        · exact Nat.lt_of_le_of_ne (Nat.not_lt.1 h1) (Ne.symm h2)
        · exact hk c hc

theorem Memory.writeAll_keeps_wf {m : Memory} (h : m.wf) (a : Nat) (bs : List Byte) : (m.writeAll a bs).wf := by
  induction bs generalizing m a with
  | nil => exact h
  | cons b bs ih => exact ih (Memory.write_keeps_wf h a b) (a + 1)

theorem Memory.clear_keeps_wf {m : Memory} (h : m.wf) (lo hi : Nat) : (m.clear lo hi).wf := List.Pairwise.filter _ h

theorem Memory.mem_clear {m : Memory} {lo hi : Nat} {c : Host.Cell} :
    c ∈ m.clear lo hi ↔ c ∈ m ∧ (c.1 < lo ∨ hi ≤ c.1) := by
  simp [Memory.clear, List.mem_filter]

theorem Memory.mem_writeAll {m : Memory} {a : Nat} {bs : List Byte} {c : Host.Cell} (h : c ∈ m.writeAll a bs) :
    (a ≤ c.1 ∧ c.1 < a + bs.length) ∨ c ∈ m := by
  induction bs generalizing m a with
  | nil => exact .inr h
  | cons b bs ih =>
    rcases ih h with h | h
    · exact .inl ⟨by omega, by simp; omega⟩
    · rcases Memory.mem_write h with rfl | h
      · exact .inl ⟨le_refl _, by simp⟩
      · exact .inr h

theorem Memory.clear_read_outside (m : Memory) {lo hi x : Nat} (h : x < lo ∨ hi ≤ x) : (m.clear lo hi).read x = m.read x := by
  induction m with
  | nil => rfl
  | cons c m ih =>
    obtain ⟨k, b⟩ := c
    by_cases hk : (decide (k < lo) || decide (hi ≤ k)) = true
    · simp only [Memory.clear, List.filter_cons, hk, ↓reduceIte, Memory.read]
      split
      · rfl
      · exact ih
    · have hx : k ≠ x := by
        rintro rfl
        simp only [Bool.or_eq_true, decide_eq_true_eq] at hk
        exact hk h
      simp only [Memory.clear, List.filter_cons, hk, Bool.false_eq_true, ↓reduceIte, Memory.read, hx]
      exact ih

theorem Memory.clear_read_inside (m : Memory) {lo hi x : Nat} (h : lo ≤ x ∧ x < hi) : (m.clear lo hi).read x = none := by
  induction m with
  | nil => rfl
  | cons c m ih =>
    obtain ⟨k, b⟩ := c
    by_cases hk : (decide (k < lo) || decide (hi ≤ k)) = true
    · have hx : k ≠ x := by
        rintro rfl
        simp only [Bool.or_eq_true, decide_eq_true_eq] at hk
        omega
      simp only [Memory.clear, List.filter_cons, hk, ↓reduceIte, Memory.read, hx]
      exact ih
    · simp only [Memory.clear, List.filter_cons, hk, Bool.false_eq_true, ↓reduceIte]
      exact ih

theorem Memory.writeAll_read_outside (m : Memory) {a x : Nat} (bs : List Byte) (h : x < a ∨ a + bs.length ≤ x) :
    (m.writeAll a bs).read x = m.read x := by
  induction bs generalizing m a with
  | nil => rfl
  | cons b bs ih =>
    have hl : (b :: bs).length = bs.length + 1 := rfl
    rw [Memory.writeAll, ih _ (by omega), Memory.write_read_other _ _ (by omega)]

theorem Memory.writeAll_read_inside (m : Memory) (a : Nat) {bs : List Byte} {i : Nat} (h : i < bs.length) :
    (m.writeAll a bs).read (a + i) = some bs[i] := by
  induction bs generalizing m a i with
  | nil => exact absurd h (Nat.not_lt_zero i)
  | cons b bs ih =>
    rw [Memory.writeAll]
    cases i with
    | zero =>
      change ((m.write a b).writeAll (a + 1) bs).read a = some b
      rw [Memory.writeAll_read_outside _ _ (.inl (Nat.lt_succ_self a)), Memory.write_read_same]
    | succ i =>
      have := ih (m.write a b) (a + 1) (Nat.lt_of_succ_lt_succ h)
      rw [show a + (i + 1) = a + 1 + i by omega, this]; rfl

theorem Memory.read_eq_none_of_not_mem {m : Memory} {a : Nat} (h : ∀ c ∈ m, c.1 ≠ a) : m.read a = none := by
  induction m with
  | nil => rfl
  | cons c m ih =>
    obtain ⟨k, b⟩ := c
    have hk : k ≠ a := h (k, b) List.mem_cons_self
    simp only [Memory.read, hk, ↓reduceIte]
    exact ih (fun d hd => h d (List.mem_cons_of_mem _ hd))

end Sys2Proof.Machine
end

