-- ==== Sys2Proof/Laws/State.lean ====
section
/-! SUPPORT. What each update of State does to each field, one lemma per field per update, so that no later proof unfolds a record
update. And what a command's end leaves unchanged, said once for both reports. -/

namespace Sys2Proof.Machine

@[simp] theorem State.setMem_cfg (s : State) (m : Memory) : (s.setMem m).cfg = s.cfg := rfl
@[simp] theorem State.setMem_status (s : State) (m : Memory) : (s.setMem m).status = s.status := rfl
@[simp] theorem State.setMem_lenA (s : State) (m : Memory) : (s.setMem m).lenA = s.lenA := rfl
@[simp] theorem State.setMem_lenB (s : State) (m : Memory) : (s.setMem m).lenB = s.lenB := rfl
@[simp] theorem State.setMem_lenOut (s : State) (m : Memory) : (s.setMem m).lenOut = s.lenOut := rfl
@[simp] theorem State.setMem_errPos (s : State) (m : Memory) : (s.setMem m).errPos = s.errPos := rfl
@[simp] theorem State.setMem_errInfo (s : State) (m : Memory) : (s.setMem m).errInfo = s.errInfo := rfl
@[simp] theorem State.setMem_mem (s : State) (m : Memory) : (s.setMem m).mem = m := rfl
@[simp] theorem State.setMem_draws (s : State) (m : Memory) : (s.setMem m).draws = s.draws := rfl
@[simp] theorem State.setMem_resets (s : State) (m : Memory) : (s.setMem m).resets = s.resets := rfl
@[simp] theorem State.setMem_script (s : State) (m : Memory) : (s.setMem m).script = s.script := rfl
@[simp] theorem State.setMem_responses (s : State) (m : Memory) : (s.setMem m).responses = s.responses := rfl

@[simp] theorem State.setLenA_cfg (s : State) (v : Word) : (s.setLenA v).cfg = s.cfg := rfl
@[simp] theorem State.setLenA_status (s : State) (v : Word) : (s.setLenA v).status = s.status := rfl
@[simp] theorem State.setLenA_lenA (s : State) (v : Word) : (s.setLenA v).lenA = v := rfl
@[simp] theorem State.setLenA_lenB (s : State) (v : Word) : (s.setLenA v).lenB = s.lenB := rfl
@[simp] theorem State.setLenA_lenOut (s : State) (v : Word) : (s.setLenA v).lenOut = s.lenOut := rfl
@[simp] theorem State.setLenA_errPos (s : State) (v : Word) : (s.setLenA v).errPos = s.errPos := rfl
@[simp] theorem State.setLenA_errInfo (s : State) (v : Word) : (s.setLenA v).errInfo = s.errInfo := rfl
@[simp] theorem State.setLenA_mem (s : State) (v : Word) : (s.setLenA v).mem = s.mem := rfl
@[simp] theorem State.setLenA_draws (s : State) (v : Word) : (s.setLenA v).draws = s.draws := rfl
@[simp] theorem State.setLenA_resets (s : State) (v : Word) : (s.setLenA v).resets = s.resets := rfl
@[simp] theorem State.setLenA_script (s : State) (v : Word) : (s.setLenA v).script = s.script := rfl
@[simp] theorem State.setLenA_responses (s : State) (v : Word) : (s.setLenA v).responses = s.responses := rfl

@[simp] theorem State.setLenB_cfg (s : State) (v : Word) : (s.setLenB v).cfg = s.cfg := rfl
@[simp] theorem State.setLenB_status (s : State) (v : Word) : (s.setLenB v).status = s.status := rfl
@[simp] theorem State.setLenB_lenA (s : State) (v : Word) : (s.setLenB v).lenA = s.lenA := rfl
@[simp] theorem State.setLenB_lenB (s : State) (v : Word) : (s.setLenB v).lenB = v := rfl
@[simp] theorem State.setLenB_lenOut (s : State) (v : Word) : (s.setLenB v).lenOut = s.lenOut := rfl
@[simp] theorem State.setLenB_errPos (s : State) (v : Word) : (s.setLenB v).errPos = s.errPos := rfl
@[simp] theorem State.setLenB_errInfo (s : State) (v : Word) : (s.setLenB v).errInfo = s.errInfo := rfl
@[simp] theorem State.setLenB_mem (s : State) (v : Word) : (s.setLenB v).mem = s.mem := rfl
@[simp] theorem State.setLenB_draws (s : State) (v : Word) : (s.setLenB v).draws = s.draws := rfl
@[simp] theorem State.setLenB_resets (s : State) (v : Word) : (s.setLenB v).resets = s.resets := rfl
@[simp] theorem State.setLenB_script (s : State) (v : Word) : (s.setLenB v).script = s.script := rfl
@[simp] theorem State.setLenB_responses (s : State) (v : Word) : (s.setLenB v).responses = s.responses := rfl

@[simp] theorem State.setScript_cfg (s : State) (es : List HostEvent) : (s.setScript es).cfg = s.cfg := rfl
@[simp] theorem State.setScript_status (s : State) (es : List HostEvent) : (s.setScript es).status = s.status := rfl
@[simp] theorem State.setScript_lenA (s : State) (es : List HostEvent) : (s.setScript es).lenA = s.lenA := rfl
@[simp] theorem State.setScript_lenB (s : State) (es : List HostEvent) : (s.setScript es).lenB = s.lenB := rfl
@[simp] theorem State.setScript_lenOut (s : State) (es : List HostEvent) : (s.setScript es).lenOut = s.lenOut := rfl
@[simp] theorem State.setScript_errPos (s : State) (es : List HostEvent) : (s.setScript es).errPos = s.errPos := rfl
@[simp] theorem State.setScript_errInfo (s : State) (es : List HostEvent) : (s.setScript es).errInfo = s.errInfo := rfl
@[simp] theorem State.setScript_mem (s : State) (es : List HostEvent) : (s.setScript es).mem = s.mem := rfl
@[simp] theorem State.setScript_draws (s : State) (es : List HostEvent) : (s.setScript es).draws = s.draws := rfl
@[simp] theorem State.setScript_resets (s : State) (es : List HostEvent) : (s.setScript es).resets = s.resets := rfl
@[simp] theorem State.setScript_script (s : State) (es : List HostEvent) : (s.setScript es).script = es := rfl
@[simp] theorem State.setScript_responses (s : State) (es : List HostEvent) : (s.setScript es).responses = s.responses := rfl

@[simp] theorem State.respond_cfg (s : State) (r : Response) : (s.respond r).cfg = s.cfg := rfl
@[simp] theorem State.respond_status (s : State) (r : Response) : (s.respond r).status = s.status := rfl
@[simp] theorem State.respond_lenA (s : State) (r : Response) : (s.respond r).lenA = s.lenA := rfl
@[simp] theorem State.respond_lenB (s : State) (r : Response) : (s.respond r).lenB = s.lenB := rfl
@[simp] theorem State.respond_lenOut (s : State) (r : Response) : (s.respond r).lenOut = s.lenOut := rfl
@[simp] theorem State.respond_errPos (s : State) (r : Response) : (s.respond r).errPos = s.errPos := rfl
@[simp] theorem State.respond_errInfo (s : State) (r : Response) : (s.respond r).errInfo = s.errInfo := rfl
@[simp] theorem State.respond_mem (s : State) (r : Response) : (s.respond r).mem = s.mem := rfl
@[simp] theorem State.respond_draws (s : State) (r : Response) : (s.respond r).draws = s.draws := rfl
@[simp] theorem State.respond_resets (s : State) (r : Response) : (s.respond r).resets = s.resets := rfl
@[simp] theorem State.respond_script (s : State) (r : Response) : (s.respond r).script = s.script := rfl
@[simp] theorem State.respond_responses (s : State) (r : Response) : (s.respond r).responses = r :: s.responses := rfl

@[simp] theorem State.setReport_cfg (s : State) (st n p e : Word) : (s.setReport st n p e).cfg = s.cfg := rfl
@[simp] theorem State.setReport_status (s : State) (st n p e : Word) : (s.setReport st n p e).status = st := rfl
@[simp] theorem State.setReport_lenA (s : State) (st n p e : Word) : (s.setReport st n p e).lenA = s.lenA := rfl
@[simp] theorem State.setReport_lenB (s : State) (st n p e : Word) : (s.setReport st n p e).lenB = s.lenB := rfl
@[simp] theorem State.setReport_lenOut (s : State) (st n p e : Word) : (s.setReport st n p e).lenOut = n := rfl
@[simp] theorem State.setReport_errPos (s : State) (st n p e : Word) : (s.setReport st n p e).errPos = p := rfl
@[simp] theorem State.setReport_errInfo (s : State) (st n p e : Word) : (s.setReport st n p e).errInfo = e := rfl
@[simp] theorem State.setReport_mem (s : State) (st n p e : Word) : (s.setReport st n p e).mem = s.mem := rfl
@[simp] theorem State.setReport_draws (s : State) (st n p e : Word) : (s.setReport st n p e).draws = s.draws := rfl
@[simp] theorem State.setReport_resets (s : State) (st n p e : Word) : (s.setReport st n p e).resets = s.resets := rfl
@[simp] theorem State.setReport_script (s : State) (st n p e : Word) : (s.setReport st n p e).script = s.script := rfl
@[simp] theorem State.setReport_responses (s : State) (st n p e : Word) : (s.setReport st n p e).responses = s.responses := rfl

@[simp] theorem State.setBufOut_cfg (s : State) (out : List Byte) : (s.setBufOut out).cfg = s.cfg := rfl
@[simp] theorem State.setBufOut_status (s : State) (out : List Byte) : (s.setBufOut out).status = s.status := rfl
@[simp] theorem State.setBufOut_lenA (s : State) (out : List Byte) : (s.setBufOut out).lenA = s.lenA := rfl
@[simp] theorem State.setBufOut_lenB (s : State) (out : List Byte) : (s.setBufOut out).lenB = s.lenB := rfl
@[simp] theorem State.setBufOut_lenOut (s : State) (out : List Byte) : (s.setBufOut out).lenOut = s.lenOut := rfl
@[simp] theorem State.setBufOut_errPos (s : State) (out : List Byte) : (s.setBufOut out).errPos = s.errPos := rfl
@[simp] theorem State.setBufOut_errInfo (s : State) (out : List Byte) : (s.setBufOut out).errInfo = s.errInfo := rfl
@[simp] theorem State.setBufOut_mem (s : State) (out : List Byte) :
    (s.setBufOut out).mem = (s.mem.clear bufOutBase (bufOutBase + s.cfg.maxOut)).writeAll bufOutBase out := rfl
@[simp] theorem State.setBufOut_draws (s : State) (out : List Byte) : (s.setBufOut out).draws = s.draws + 1 := rfl
@[simp] theorem State.setBufOut_resets (s : State) (out : List Byte) : (s.setBufOut out).resets = s.resets := rfl
@[simp] theorem State.setBufOut_script (s : State) (out : List Byte) : (s.setBufOut out).script = s.script := rfl
@[simp] theorem State.setBufOut_responses (s : State) (out : List Byte) : (s.setBufOut out).responses = s.responses := rfl

@[simp] theorem State.takeError_cfg (s : State) (e : CmdError) : (s.takeError e).cfg = s.cfg := rfl
@[simp] theorem State.takeError_status (s : State) (e : CmdError) : (s.takeError e).status = failureStatus e.code := rfl
@[simp] theorem State.takeError_lenA (s : State) (e : CmdError) : (s.takeError e).lenA = s.lenA := rfl
@[simp] theorem State.takeError_lenB (s : State) (e : CmdError) : (s.takeError e).lenB = s.lenB := rfl
@[simp] theorem State.takeError_lenOut (s : State) (e : CmdError) : (s.takeError e).lenOut = 0 := rfl
@[simp] theorem State.takeError_errPos (s : State) (e : CmdError) : (s.takeError e).errPos = BitVec.ofNat 32 e.pos := rfl
@[simp] theorem State.takeError_errInfo (s : State) (e : CmdError) : (s.takeError e).errInfo = failureInfo e.opnd e.ch := rfl
@[simp] theorem State.takeError_mem (s : State) (e : CmdError) :
    (s.takeError e).mem = s.mem.clear bufOutBase (bufOutBase + s.cfg.maxOut) := rfl
@[simp] theorem State.takeError_draws (s : State) (e : CmdError) : (s.takeError e).draws = s.draws + 1 := rfl
@[simp] theorem State.takeError_resets (s : State) (e : CmdError) : (s.takeError e).resets = s.resets := rfl
@[simp] theorem State.takeError_script (s : State) (e : CmdError) : (s.takeError e).script = s.script := rfl
@[simp] theorem State.takeError_responses (s : State) (e : CmdError) : (s.takeError e).responses = s.responses := rfl

@[simp] theorem State.takeSuccess_cfg (s : State) (out : List Byte) : (s.takeSuccess out).cfg = s.cfg := rfl
@[simp] theorem State.takeSuccess_status (s : State) (out : List Byte) : (s.takeSuccess out).status = successStatus := rfl
@[simp] theorem State.takeSuccess_lenA (s : State) (out : List Byte) : (s.takeSuccess out).lenA = s.lenA := rfl
@[simp] theorem State.takeSuccess_lenB (s : State) (out : List Byte) : (s.takeSuccess out).lenB = s.lenB := rfl
@[simp] theorem State.takeSuccess_lenOut (s : State) (out : List Byte) :
    (s.takeSuccess out).lenOut = BitVec.ofNat 32 out.length := rfl
@[simp] theorem State.takeSuccess_errPos (s : State) (out : List Byte) : (s.takeSuccess out).errPos = 0 := rfl
@[simp] theorem State.takeSuccess_errInfo (s : State) (out : List Byte) : (s.takeSuccess out).errInfo = 0 := rfl
@[simp] theorem State.takeSuccess_mem (s : State) (out : List Byte) :
    (s.takeSuccess out).mem = (s.mem.clear bufOutBase (bufOutBase + s.cfg.maxOut)).writeAll bufOutBase out := rfl
@[simp] theorem State.takeSuccess_draws (s : State) (out : List Byte) : (s.takeSuccess out).draws = s.draws + 1 := rfl
@[simp] theorem State.takeSuccess_resets (s : State) (out : List Byte) : (s.takeSuccess out).resets = s.resets := rfl
@[simp] theorem State.takeSuccess_script (s : State) (out : List Byte) : (s.takeSuccess out).script = s.script := rfl
@[simp] theorem State.takeSuccess_responses (s : State) (out : List Byte) : (s.takeSuccess out).responses = s.responses := rfl

@[simp] theorem State.takeReset_cfg (s : State) : (s.takeReset).cfg = s.cfg := rfl
@[simp] theorem State.takeReset_status (s : State) : (s.takeReset).status = 0 := rfl
@[simp] theorem State.takeReset_lenA (s : State) : (s.takeReset).lenA = 0 := rfl
@[simp] theorem State.takeReset_lenB (s : State) : (s.takeReset).lenB = 0 := rfl
@[simp] theorem State.takeReset_lenOut (s : State) : (s.takeReset).lenOut = 0 := rfl
@[simp] theorem State.takeReset_errPos (s : State) : (s.takeReset).errPos = 0 := rfl
@[simp] theorem State.takeReset_errInfo (s : State) : (s.takeReset).errInfo = 0 := rfl
@[simp] theorem State.takeReset_mem (s : State) : (s.takeReset).mem = [] := rfl
@[simp] theorem State.takeReset_draws (s : State) : (s.takeReset).draws = s.draws := rfl
@[simp] theorem State.takeReset_resets (s : State) : (s.takeReset).resets = s.resets + 1 := rfl
@[simp] theorem State.takeReset_script (s : State) : (s.takeReset).script = s.script := rfl
@[simp] theorem State.takeReset_responses (s : State) : (s.takeReset).responses = s.responses := rfl

@[simp] theorem State.withFetchWord_cfg (s : State) (nbits w : Nat) : (s.withFetchWord nbits w).cfg = s.cfg := rfl
@[simp] theorem State.withFetchWord_status (s : State) (nbits w : Nat) : (s.withFetchWord nbits w).status = s.status := rfl
@[simp] theorem State.withFetchWord_lenA (s : State) (nbits w : Nat) : (s.withFetchWord nbits w).lenA = s.lenA := rfl
@[simp] theorem State.withFetchWord_lenB (s : State) (nbits w : Nat) : (s.withFetchWord nbits w).lenB = s.lenB := rfl
@[simp] theorem State.withFetchWord_lenOut (s : State) (nbits w : Nat) : (s.withFetchWord nbits w).lenOut = s.lenOut := rfl
@[simp] theorem State.withFetchWord_errPos (s : State) (nbits w : Nat) : (s.withFetchWord nbits w).errPos = s.errPos := rfl
@[simp] theorem State.withFetchWord_errInfo (s : State) (nbits w : Nat) : (s.withFetchWord nbits w).errInfo = s.errInfo := rfl
@[simp] theorem State.withFetchWord_mem (s : State) (nbits w : Nat) : (s.withFetchWord nbits w).mem = s.mem := rfl
@[simp] theorem State.withFetchWord_draws (s : State) (nbits w : Nat) : (s.withFetchWord nbits w).draws = s.draws := rfl
@[simp] theorem State.withFetchWord_resets (s : State) (nbits w : Nat) : (s.withFetchWord nbits w).resets = s.resets := rfl
@[simp] theorem State.withFetchWord_script (s : State) (nbits w : Nat) :
    (s.withFetchWord nbits w).script = .write s.cfg.base 4 (BitVec.ofNat 32 (w % 2 ^ nbits)) :: s.script := rfl
@[simp] theorem State.withFetchWord_responses (s : State) (nbits w : Nat) :
    (s.withFetchWord nbits w).responses = s.responses := rfl

@[simp] theorem State.resetOf_cfg (c : Config) : (State.resetOf c).cfg = c := rfl
@[simp] theorem State.resetOf_status (c : Config) : (State.resetOf c).status = 0 := rfl
@[simp] theorem State.resetOf_lenA (c : Config) : (State.resetOf c).lenA = 0 := rfl
@[simp] theorem State.resetOf_lenB (c : Config) : (State.resetOf c).lenB = 0 := rfl
@[simp] theorem State.resetOf_lenOut (c : Config) : (State.resetOf c).lenOut = 0 := rfl
@[simp] theorem State.resetOf_errPos (c : Config) : (State.resetOf c).errPos = 0 := rfl
@[simp] theorem State.resetOf_errInfo (c : Config) : (State.resetOf c).errInfo = 0 := rfl
@[simp] theorem State.resetOf_mem (c : Config) : (State.resetOf c).mem = [] := rfl
@[simp] theorem State.resetOf_draws (c : Config) : (State.resetOf c).draws = 0 := rfl
@[simp] theorem State.resetOf_resets (c : Config) : (State.resetOf c).resets = 0 := rfl
@[simp] theorem State.resetOf_script (c : Config) : (State.resetOf c).script = [] := rfl
@[simp] theorem State.resetOf_responses (c : Config) : (State.resetOf c).responses = [] := rfl

@[simp] theorem State.finish_cfg (s : State) (r : CmdResult) : (s.finish r).cfg = s.cfg := by cases r <;> rfl
@[simp] theorem State.finish_lenA (s : State) (r : CmdResult) : (s.finish r).lenA = s.lenA := by cases r <;> rfl
@[simp] theorem State.finish_lenB (s : State) (r : CmdResult) : (s.finish r).lenB = s.lenB := by cases r <;> rfl
@[simp] theorem State.finish_resets (s : State) (r : CmdResult) : (s.finish r).resets = s.resets := by cases r <;> rfl
@[simp] theorem State.finish_script (s : State) (r : CmdResult) : (s.finish r).script = s.script := by cases r <;> rfl
@[simp] theorem State.finish_responses (s : State) (r : CmdResult) : (s.finish r).responses = s.responses := by cases r <;> rfl

@[simp] theorem State.finish_draws (s : State) (r : CmdResult) : (s.finish r).draws = s.draws + 1 := by cases r <;> rfl

end Sys2Proof.Machine
end

