-- ==== Sys2Proof/Laws/Exec.lean ====
section
/-! SUPPORT. What each shared operation of a command can do, said once: a command answers `finish` of its result, what each report
leaves in BUF_OUT, the operand octets, and the one case split of a step. -/

namespace Sys2Proof.Machine

/-- The result a command computes before it reports (R78's `run`). -/
def runCommand (i : Instr) (s : State) : CmdResult :=
  match i with
  | .hexDecode => withOperandA s (fun a => hexDecodeFn a .a)
  | .b64Encode => withOperandA s (fun a => .done (b64EncodeFn a))
  | .hexToB64 => withOperandA s hexToB64Fn
  | .xorHex => withOperandsAB s xorHexFn
  | .hexEncode => withOperandA s (fun a => .done (hexEncodeFn a))

/-- Every command answers a next state: the report of its result. -/
theorem exec_eq_finish (i : Instr) (s : State) : exec i s = .next (s.finish (runCommand i s)) := by
  cases i <;> rfl

theorem withOperandA_fits {s : State} (f : List Byte → CmdResult) (h : s.lenA.toNat ≤ s.cfg.maxIn) :
    withOperandA s f = f (operandA s) := if_neg (Nat.not_lt.2 h)

theorem withOperandA_over {s : State} (f : List Byte → CmdResult) (h : s.cfg.maxIn < s.lenA.toNat) :
    withOperandA s f = .raised (plainError .capacity) := if_pos h

theorem withOperandsAB_fits {s : State} (f : List Byte → List Byte → CmdResult) (ha : s.lenA.toNat ≤ s.cfg.maxIn)
    (hb : s.lenB.toNat ≤ s.cfg.maxIn) : withOperandsAB s f = f (operandA s) (operandB s) :=
  if_neg (by omega)

theorem withOperandsAB_over {s : State} (f : List Byte → List Byte → CmdResult)
    (h : s.cfg.maxIn < s.lenA.toNat ∨ s.cfg.maxIn < s.lenB.toNat) :
    withOperandsAB s f = .raised (plainError .capacity) := if_pos h

@[simp] theorem operandOctets_length (s : State) (base n : Nat) : (operandOctets s base n).length = n := by
  simp [operandOctets]

@[simp] theorem operandA_length (s : State) : (operandA s).length = s.lenA.toNat := operandOctets_length ..

@[simp] theorem operandB_length (s : State) : (operandB s).length = s.lenB.toNat := operandOctets_length ..

theorem operandOctets_getElem (s : State) (base n i : Nat) (h : i < (operandOctets s base n).length) :
    (operandOctets s base n)[i] = operandOctet s (base + i) := by
  simp [operandOctets]

/-- Operand octets depend on memory and the reset count alone. -/
theorem operandOctet_congr {s t : State} {off : Nat} (hm : s.mem.read off = t.mem.read off) (hr : s.resets = t.resets) :
    operandOctet s off = operandOctet t off := by
  simp [operandOctet, hm, hr]

/-- A command's end leaves every octet outside BUF_OUT as it was, when its result fits. -/
theorem finish_read_outside (s : State) (r : CmdResult) {off : Nat} (ho : off < bufOutBase ∨ bufOutBase + s.cfg.maxOut ≤ off)
    (hfit : ∀ out, r = .done out → out.length ≤ s.cfg.maxOut) : (s.finish r).mem.read off = s.mem.read off := by
  cases r with
  | done out =>
    have := hfit out rfl
    simp only [State.finish, State.takeSuccess_mem]
    rw [Memory.writeAll_read_outside _ _ (by omega), Memory.clear_read_outside _ ho]
  | raised e => exact Memory.clear_read_outside _ ho

/-- After a success, BUF_OUT[i] holds octet `i` of the result. -/
theorem takeSuccess_read_result (s : State) {out : List Byte} {i : Nat} (h : i < out.length) :
    (s.takeSuccess out).mem.read (bufOutBase + i) = some out[i] :=
  Memory.writeAll_read_inside _ _ h

/-- After a failure no octet of BUF_OUT is listed: each is a drawn one. -/
theorem takeError_read_out (s : State) (e : CmdError) {i : Nat} (h : i < s.cfg.maxOut) :
    (s.takeError e).mem.read (bufOutBase + i) = none :=
  Memory.clear_read_inside _ (by omega)

/-- Every command's end sets DONE (R26). -/
theorem statusDone_finish (s : State) (r : CmdResult) : statusDone (s.finish r).status = true := by
  cases r with
  | done out => change statusDone successStatus = true; decide
  | raised e =>
    change statusDone (failureStatus e.code) = true
    cases e.code <;> decide

theorem finish_keeps_wf {s : State} (h : s.mem.wf) (r : CmdResult) : (s.finish r).mem.wf := by
  cases r with
  | done out => exact Memory.writeAll_keeps_wf (Memory.clear_keeps_wf h _ _) _ _
  | raised e => exact Memory.clear_keeps_wf h _ _

/-- The result of a CMD word (R78): that of its command, or ILLEGAL_OP. -/
def runWord (w : Word) (s : State) : CmdResult :=
  match decode w with
  | .command i => runCommand i s
  | .illegal _ => .raised (plainError .illegalOp)

/-- Performing a CMD word answers a next state: the report of its result. -/
theorem performCommand_eq_finish (w : Word) (s : State) : performCommand w s = .next (s.finish (runWord w s)) := by
  unfold performCommand runWord
  cases decode w with
  | command i => exact exec_eq_finish i s
  | illegal _ => rfl

/-- A legal launch takes its step by `runScript`. -/
theorem step_of_legal {s : State} (h : s.cfg.legal = true) : step s = runScript s := by
  simp only [Config.legal, Bool.and_eq_true] at h
  simp [step, transact, h.1.1, h.1.2, h.2]

/-- Only legal launches take a next step. -/
theorem legal_of_step_next {s t : State} (h : step s = .next t) : s.cfg.legal = true := by
  simp only [step, transact] at h
  split at h <;> [exact nomatch h; skip]
  split at h <;> [exact nomatch h; skip]
  split at h <;> [exact nomatch h; skip]
  simp_all [Config.legal]

/-- Everything a next step can be. -/
theorem step_cases {s t : State} (h : step s = .next t) :
    (s.script = [] ∧ t = s)
    ∨ (∃ e rest, s.script = e :: rest ∧ (
        (t = s.setScript rest)
        ∨ (∃ r, t = (s.setScript rest).respond r)
        ∨ (∃ w, t = ((s.setScript rest).finish (runWord w (s.setScript rest))).respond .writeDone)
        ∨ (∃ off size v, accepted off size = true ∧ placeOf off ≠ .reg .cmd
            ∧ t = (writeAt (s.setScript rest) off size v).respond .writeDone)
        ∨ ((e = .reset ∨ ∃ w, e = .resetDuringCommand w) ∧ t = (s.setScript rest).takeReset))) := by
  rw [step_of_legal (legal_of_step_next h), runScript] at h
  split at h
  · rename_i hs
    exact .inl ⟨hs, by injection h with h; exact h.symm⟩
  · rename_i e rest hs
    refine .inr ⟨e, rest, hs, ?_⟩
    cases e with
    | read addr size =>
      simp only [performEvent, hostRead] at h
      split at h
      · split at h
        · split at h
          · injection h with h; exact .inr (.inl ⟨_, h.symm⟩)
          · exact nomatch h
        · injection h with h; exact .inr (.inl ⟨_, h.symm⟩)
      · injection h with h; exact .inl h.symm
    | write addr size v =>
      simp only [performEvent, hostWrite] at h
      split at h
      · rename_i off _
        split at h
        · rename_i ha
          split at h
          · rw [performCommand_eq_finish] at h
            injection h with h
            exact .inr (.inr (.inl ⟨v, h.symm⟩))
          · rename_i hp
            injection h with h
            exact .inr (.inr (.inr (.inl ⟨off, size, v, ha, hp, h.symm⟩)))
        · injection h with h; exact .inr (.inl ⟨_, h.symm⟩)
      · injection h with h; exact .inl h.symm
    | reset =>
      injection h with h
      exact .inr (.inr (.inr (.inr ⟨.inl rfl, h.symm⟩)))
    | resetDuringCommand w =>
      injection h with h
      exact .inr (.inr (.inr (.inr ⟨.inr ⟨w, rfl⟩, h.symm⟩)))

end Sys2Proof.Machine
end

