-- ==== Sys2Proof/Laws/Bus.lean ====
section
/-! SUPPORT. The bus port: where each window lies, what an accepted write can change, and what a read of lanes gives. -/

namespace Sys2Proof.Machine

theorem regAt_offset {off : Nat} {r : Reg} (h : regAt off = some r) : off = r.offset := by
  unfold regAt at h
  split at h <;> cases h <;> rfl

theorem placeOf_bufA {i : Nat} (h : i < 0x10000) : placeOf (0x10000 + i) = .bufA i := by
  unfold placeOf
  rw [if_neg (by omega), if_pos (by omega)]
  exact congrArg Place.bufA (Nat.add_sub_cancel_left ..)

theorem placeOf_bufB {i : Nat} (h : i < 0x10000) : placeOf (0x20000 + i) = .bufB i := by
  unfold placeOf
  rw [if_neg (by omega), if_neg (by omega), if_pos (by omega)]
  exact congrArg Place.bufB (Nat.add_sub_cancel_left ..)

theorem placeOf_bufOut {i : Nat} (h : i < 0x20000) : placeOf (0x30000 + i) = .bufOut i := by
  unfold placeOf
  rw [if_neg (by omega), if_neg (by omega), if_neg (by omega), if_pos (by omega)]
  exact congrArg Place.bufOut (Nat.add_sub_cancel_left ..)

theorem maxIn_le_of_legal {c : Config} (h : c.legal = true) : 1 ≤ c.maxIn ∧ c.maxIn ≤ 65536 := by
  simp only [Config.legal, Config.maxInLegal, Bool.and_eq_true, decide_eq_true_eq] at h
  exact h.1.1

theorem maxOut_le_of_legal {c : Config} (h : c.legal = true) : c.maxOut ≤ 0x20000 := by
  have := maxIn_le_of_legal h
  simp only [Config.maxOut]
  omega

/-- The place of an offset inside the aperture, by its range. -/
theorem placeOf_cases (off : Nat) :
    (off < 0x10000 ∧ ((∃ r, placeOf off = .reg r ∧ off = r.offset) ∨ placeOf off = .reserved))
    ∨ (∃ i, i < 0x10000 ∧ off = 0x10000 + i ∧ placeOf off = .bufA i)
    ∨ (∃ i, i < 0x10000 ∧ off = 0x20000 + i ∧ placeOf off = .bufB i)
    ∨ (∃ i, i < 0x20000 ∧ off = 0x30000 + i ∧ placeOf off = .bufOut i)
    ∨ (0x50000 ≤ off ∧ placeOf off = .reserved) := by
  by_cases h1 : off < 0x10000
  · refine .inl ⟨h1, ?_⟩
    simp only [placeOf, if_pos h1]
    cases hr : regAt off with
    | none => exact .inr rfl
    | some r => exact .inl ⟨r, rfl, regAt_offset hr⟩
  by_cases h2 : off < 0x20000
  · have := placeOf_bufA (i := off - 0x10000) (by omega)
    rw [show 0x10000 + (off - 0x10000) = off by omega] at this
    exact .inr (.inl ⟨off - 0x10000, by omega, by omega, this⟩)
  by_cases h3 : off < 0x30000
  · have := placeOf_bufB (i := off - 0x20000) (by omega)
    rw [show 0x20000 + (off - 0x20000) = off by omega] at this
    exact .inr (.inr (.inl ⟨off - 0x20000, by omega, by omega, this⟩))
  by_cases h4 : off < 0x50000
  · have := placeOf_bufOut (i := off - 0x30000) (by omega)
    rw [show 0x30000 + (off - 0x30000) = off by omega] at this
    exact .inr (.inr (.inr (.inl ⟨off - 0x30000, by omega, by omega, this⟩)))
  · exact .inr (.inr (.inr (.inr ⟨by omega, by simp [placeOf, h1, h2, h3, h4]⟩)))

/-- An offset is writable by the host: inside BUF_A or BUF_B (R58, R59). -/
def Writable (c : Config) (off : Nat) : Prop :=
  (0x10000 ≤ off ∧ off < 0x10000 + c.maxIn) ∨ (0x20000 ≤ off ∧ off < 0x20000 + c.maxIn)

/-- An octet write stores in a writable place and does nothing elsewhere. -/
theorem writeOctet_writable {s : State} {off : Nat} (hl : s.cfg.legal = true) (h : Writable s.cfg off) (b : Byte) :
    writeOctet s off b = s.setMem (s.mem.write off b) := by
  have hm := maxIn_le_of_legal hl
  rcases placeOf_cases off with ⟨h0, _⟩ | ⟨i, _, rfl, hp⟩ | ⟨i, _, rfl, hp⟩ | ⟨i, _, rfl, hp⟩ | ⟨h0, _⟩
  · simp only [Writable] at h; omega
  · simp only [writeOctet, hp, Writable] at h ⊢
    rw [if_pos (by omega)]
  · simp only [writeOctet, hp, Writable] at h ⊢
    rw [if_pos (by omega)]
  · simp only [Writable] at h; omega
  · simp only [Writable] at h; omega

theorem writeOctet_not_writable {s : State} {off : Nat} (h : ¬ Writable s.cfg off) (b : Byte) : writeOctet s off b = s := by
  rcases placeOf_cases off with ⟨_, ⟨r, hp, _⟩ | hp⟩ | ⟨i, _, rfl, hp⟩ | ⟨i, _, rfl, hp⟩ | ⟨i, _, rfl, hp⟩ | ⟨_, hp⟩
  · simp only [writeOctet, hp]
  · simp only [writeOctet, hp]
  · simp only [writeOctet, hp, Writable] at h ⊢
    rw [if_neg (by omega)]
  · simp only [writeOctet, hp, Writable] at h ⊢
    rw [if_neg (by omega)]
  · simp only [writeOctet, hp]
  · simp only [writeOctet, hp]

/-- Everything an octet write can do. -/
theorem writeOctet_cases (s : State) (off : Nat) (b : Byte) (hl : s.cfg.legal = true) :
    writeOctet s off b = s ∨ (Writable s.cfg off ∧ writeOctet s off b = s.setMem (s.mem.write off b)) := by
  by_cases h : Writable s.cfg off
  · exact .inr ⟨h, writeOctet_writable hl h b⟩
  · exact .inl (writeOctet_not_writable h b)

/-- A write of lanes changes memory alone, in writable places from `off` to `off + n - 1`, and keeps its form. -/
theorem writeLanes_changes_only_mem (n : Nat) : ∀ (s : State) (off : Nat) (v : Word), s.cfg.legal = true →
    ∃ m, writeLanes s off v n = s.setMem m ∧ (s.mem.wf → m.wf)
      ∧ (∀ a, ¬ (off ≤ a ∧ a < off + n ∧ Writable s.cfg a) → m.read a = s.mem.read a)
      ∧ (∀ c ∈ m, c ∈ s.mem ∨ Writable s.cfg c.1) := by
  induction n with
  | zero => exact fun s off v _ => ⟨s.mem, rfl, id, fun _ _ => rfl, fun c hc => .inl hc⟩
  | succ n ih =>
    intro s off v hl
    rcases writeOctet_cases s off (v.setWidth 8) hl with h | ⟨hw, h⟩
    · obtain ⟨m, h1, h2, h3, h4⟩ := ih s (off + 1) (v >>> 8) hl
      refine ⟨m, by rw [writeLanes, h, h1], h2, fun a ha => h3 a (by rintro ⟨x, y, z⟩; exact ha ⟨by omega, by omega, z⟩), h4⟩
    · obtain ⟨m, h1, h2, h3, h4⟩ := ih (s.setMem (s.mem.write off (v.setWidth 8))) (off + 1) (v >>> 8) hl
      refine ⟨m, by rw [writeLanes, h, h1]; rfl, fun hwf => h2 (Memory.write_keeps_wf hwf _ _), fun a ha => ?_, fun c hc => ?_⟩
      · have hne : a ≠ off := by
          rintro rfl
          exact ha ⟨le_refl _, by omega, hw⟩
        rw [h3 a (by rintro ⟨x, y, z⟩; exact ha ⟨by omega, by omega, z⟩)]
        exact Memory.write_read_other _ _ hne
      · rcases h4 c hc with hc | hc
        · rcases Memory.mem_write hc with rfl | hc
          · exact .inr hw
          · exact .inl hc
        · exact .inr hc

/-- Everything an accepted write to a place other than CMD can do. -/
theorem writeAt_cases (s : State) (off size : Nat) (v : Word) (hl : s.cfg.legal = true) :
    writeAt s off size v = s.setLenA v ∨ writeAt s off size v = s.setLenB v
    ∨ ∃ m, writeAt s off size v = s.setMem m ∧ (s.mem.wf → m.wf)
      ∧ (∀ a, ¬ (off ≤ a ∧ a < off + size ∧ Writable s.cfg a) → m.read a = s.mem.read a)
      ∧ (∀ c ∈ m, c ∈ s.mem ∨ Writable s.cfg c.1) := by
  have hlanes := writeLanes_changes_only_mem size s off v hl
  have hid : ∃ m, s = s.setMem m ∧ (s.mem.wf → m.wf)
      ∧ (∀ a, ¬ (off ≤ a ∧ a < off + size ∧ Writable s.cfg a) → m.read a = s.mem.read a)
      ∧ (∀ c ∈ m, c ∈ s.mem ∨ Writable s.cfg c.1) :=
    ⟨s.mem, rfl, id, fun _ _ => rfl, fun c hc => .inl hc⟩
  unfold writeAt
  cases placeOf off with
  | reg r => cases r <;> first | exact .inl rfl | exact .inr (.inl rfl) | exact .inr (.inr hid)
  | reserved => exact .inr (.inr hid)
  | bufA i => exact .inr (.inr hlanes)
  | bufB i => exact .inr (.inr hlanes)
  | bufOut i => exact .inr (.inr hlanes)

/-- A host read of one octet looks at memory, the capacities and, in BUF_OUT, at DONE and the draw. -/
theorem hostOctet_congr {s t : State} {off : Nat} (hc : t.cfg = s.cfg) (hm : t.mem.read off = s.mem.read off)
    (hd : 0x30000 ≤ off → statusDone t.status = statusDone s.status ∧ t.draws = s.draws) :
    hostOctet t off = hostOctet s off := by
  rcases placeOf_cases off with ⟨_, ⟨r, hp, _⟩ | hp⟩ | ⟨i, _, rfl, hp⟩ | ⟨i, _, rfl, hp⟩ | ⟨i, _, rfl, hp⟩ | ⟨_, hp⟩
  · simp only [hostOctet, hp]
  · simp only [hostOctet, hp]
  · simp only [hostOctet, hp, hc, hm]
  · simp only [hostOctet, hp, hc, hm]
  · have hd := hd (by omega)
    simp only [hostOctet, hp, hc, outOctet, bufOutBase, hm, hd.1, hd.2]
  · simp only [hostOctet, hp]

/-- The octet of BUF_OUT inside capacity as the host reads it. -/
theorem hostOctet_bufOut {s : State} {i : Nat} (hl : s.cfg.legal = true) (h : i < s.cfg.maxOut) :
    hostOctet s (bufOutBase + i) = outOctet s i := by
  have := maxOut_le_of_legal hl
  simp only [hostOctet, placeOf_bufOut (i := i) (by omega), if_pos h]

/-- A block offset is read back from its bus address. -/
theorem blockOffset_busAddress (c : Config) {off : Nat} (h : off < 0x80000) : blockOffset c (c.base + off) = some off := by
  have ha : c.base ≤ c.base + off ∧ c.base + off < c.base + apertureSize :=
    ⟨Nat.le_add_right .., Nat.add_lt_add_left h _⟩
  rw [blockOffset, if_pos ha, Nat.add_sub_cancel_left]

/-- A bus address that names a block offset is BASE plus it. -/
theorem addr_of_blockOffset {c : Config} {addr off : Nat} (h : blockOffset c addr = some off) :
    addr = c.base + off ∧ off < 0x80000 := by
  unfold blockOffset at h
  by_cases hc : c.base ≤ addr ∧ addr < c.base + apertureSize
  · rw [if_pos hc] at h
    injection h with h
    have h2 : addr < c.base + 0x80000 := hc.2
    omega
  · rw [if_neg hc] at h
    exact nomatch h

end Sys2Proof.Machine
end

