-- ==== Sys2Proof/Laws/PerInstr.lean ====
section
/-! SUPPORT. What holds of every command as syntax, one lemma per constructor. CommandWord: a command is well formed and its word is one
software may write to CMD: reserved bits 0 and OP one of 1 to 5 (spec/30_encoding.md R70 to R73). -/

namespace Sys2Proof.Laws.CommandWord

/-- The claim of this family about one command. -/
def Statement (i : Sys2Proof.Instr) : Prop :=
  i.wellFormed = true ∧ Word.wellFormedCommand (encode i) = true ∧ opField (encode i) = opcode i

theorem hexDecode : Statement .hexDecode := by unfold Statement; decide

theorem b64Encode : Statement .b64Encode := by unfold Statement; decide

theorem hexToB64 : Statement .hexToB64 := by unfold Statement; decide

theorem xorHex : Statement .xorHex := by unfold Statement; decide

theorem hexEncode : Statement .hexEncode := by unfold Statement; decide

end Sys2Proof.Laws.CommandWord
end

