-- ==== Sys2Proof/Tests/Slice0.lean ====
section
/-! SUPPORT. The model's own tests: decoding from words written out from the spec's encodings, checks of well-formedness, one step or one
command on a small state with the expected result taken from spec/95_test_vectors.md or the command's rule, and for every statement with
hypotheses a witness that meets them. -/

namespace Sys2Proof.Tests

open Sys2Proof Sys2Proof.Machine

/-- A block of eight-octet input buffers with BASE 0x80000. -/
def small : Config := ⟨8, 0x80000, 1⟩

/-- The smallest block (95_test_vectors.md 2.8). -/
def tiny : Config := ⟨1, 0, 1⟩

/-- The state after the host has loaded both operands. -/
def loaded (c : Config) (a b : List Byte) : State :=
  { State.resetOf c with
    lenA := BitVec.ofNat 32 a.length
    lenB := BitVec.ofNat 32 b.length
    mem := (Memory.writeAll [] bufABase a).writeAll bufBBase b }

/-- The outcome is a next state with the property. -/
def after (o : Host.Outcome State Fault Refusal) (p : State → Bool) : Bool :=
  match o with
  | .next s => p s
  | .fault _ => false
  | .refused _ => false

/-- The outcome is this fault. -/
def faults (o : Host.Outcome State Fault Refusal) (f : Fault) : Bool :=
  match o with
  | .next _ => false
  | .fault g => g == f
  | .refused _ => false

/-- The outcome is this refusal. -/
def refuses (o : Host.Outcome State Fault Refusal) (r : Refusal) : Bool :=
  match o with
  | .next _ => false
  | .fault _ => false
  | .refused q => q == r

/-- STATUS 1, LEN_OUT and the result octets. -/
def gives (out : List Byte) (s : State) : Bool :=
  s.status == 1 && s.lenOut == BitVec.ofNat 32 out.length && s.errPos == 0 && s.errInfo == 0
    && (List.range out.length).map (resultOctet s) == out.map some

/-- The report of a failure. -/
def reports (status pos info : Word) (s : State) : Bool :=
  s.status == status && s.lenOut == 0 && s.errPos == pos && s.errInfo == info

/-! ## Decoding: the words of 30_encoding.md R71, RSV bits [31:4] then OP bits [3:0] -/

theorem test_decode_hexDecode : decode (0b0000000000000000000000000000#28 ++ 0b0001#4) = .command .hexDecode := by decide

theorem test_decode_b64Encode : decode (0b0000000000000000000000000000#28 ++ 0b0010#4) = .command .b64Encode := by decide

theorem test_decode_hexToB64 : decode (0b0000000000000000000000000000#28 ++ 0b0011#4) = .command .hexToB64 := by decide

theorem test_decode_xorHex : decode (0b0000000000000000000000000000#28 ++ 0b0100#4) = .command .xorHex := by decide

theorem test_decode_hexEncode : decode (0b0000000000000000000000000000#28 ++ 0b0101#4) = .command .hexEncode := by decide

/-- 95_test_vectors.md 2.7. -/
theorem test_decode_illegal :
    decode 0x00000000 = .illegal .illegalOpcode ∧ decode 0x00000007 = .illegal .illegalOpcode
      ∧ decode 0x00000011 = .illegal .reservedBits ∧ decode 0xFFFFFFFF = .illegal .reservedBits := by decide

/-- opcode_table.json: `match` of each row, 32 bits. -/
theorem test_decodeTableWord :
    decodeTableWord 32 1 = some .hexDecode ∧ decodeTableWord 32 5 = some .hexEncode ∧ decodeTableWord 32 0x15 = none := by decide

theorem test_command_names :
    commandNamed "XOR_HEX" = some .xorHex ∧ commandNamed "bytes_to_base64" = some .b64Encode ∧ commandNamed "NOP" = none := by
  decide

/-! ## Well-formedness: an ill-formed term for each check -/

theorem test_wellFormed_reservedBit : Word.reservedClear 0x00000011 = false ∧ Word.wellFormedCommand 0x00000011 = false := by decide

theorem test_wellFormed_op : Word.opAssigned 0x00000006 = false ∧ Word.wellFormedCommand 0x00000000 = false := by decide

theorem test_legal_maxIn : Config.legal ⟨0, 0, 1⟩ = false ∧ Config.legal ⟨65537, 0, 1⟩ = false ∧ Config.legal ⟨65536, 0, 1⟩ = true := by
  decide

theorem test_legal_base : Config.legal ⟨8, 0x40000, 1⟩ = false ∧ Config.legal ⟨8, 0x100000, 1⟩ = true := by decide

theorem test_legal_masters : Config.legal ⟨8, 0, 2⟩ = false ∧ Config.legal ⟨8, 0, 0⟩ = false := by decide

/-! ## The commands, from 95_test_vectors.md part 2 -/

/-- "4d616e" gives 4D 61 6E. -/
theorem test_hexDecode_pairs :
    after (exec .hexDecode (loaded small [0x34, 0x64, 0x36, 0x31, 0x36, 0x65] [])) (gives [0x4D, 0x61, 0x6E]) = true := by decide

/-- "00gZ" reports the first bad octet. -/
theorem test_hexDecode_lowest_index :
    after (exec .hexDecode (loaded small [0x30, 0x30, 0x67, 0x5A] [])) (reports 0x23 2 0x67) = true := by decide

/-- 73 33 1C gives "czMc", and FB FF gives "+/8=". -/
theorem test_b64Encode_groups :
    after (exec .b64Encode (loaded small [0x73, 0x33, 0x1C] [])) (gives [0x63, 0x7A, 0x4D, 0x63]) = true
      ∧ after (exec .b64Encode (loaded small [0xFB, 0xFF] [])) (gives [0x2B, 0x2F, 0x38, 0x3D]) = true := by decide

/-- At MAX_IN = 1, [00] gives "AA==", which fills BUF_OUT exactly. -/
theorem test_b64Encode_fills_bufOut :
    after (exec .b64Encode (loaded tiny [0x00] [])) (gives [0x41, 0x41, 0x3D, 0x3D]) = true := by decide

/-- "4d61" gives "TWE=". -/
theorem test_hexToB64_pads :
    after (exec .hexToB64 (loaded small [0x34, 0x64, 0x36, 0x31] [])) (gives [0x54, 0x57, 0x45, 0x3D]) = true := by decide

/-- "4d6g" gives no output although "4d" is valid. -/
theorem test_hexToB64_no_partial :
    after (exec .hexToB64 (loaded small [0x34, 0x64, 0x36, 0x67] [])) (reports 0x23 3 0x67) = true := by decide

/-- "DEAD" XOR "beef" gives "6042". -/
theorem test_xorHex_lowercase :
    after (exec .xorHex (loaded small [0x44, 0x45, 0x41, 0x44] [0x62, 0x65, 0x65, 0x66])) (gives [0x36, 0x30, 0x34, 0x32]) = true := by
  decide

/-- "00" with "0g" reports operand B, "zz" with "z" reports the lengths. -/
theorem test_xorHex_errors :
    after (exec .xorHex (loaded small [0x30, 0x30] [0x30, 0x67])) (reports 0x23 1 0x167) = true
      ∧ after (exec .xorHex (loaded small [0x7A, 0x7A] [0x7A])) (reports 0x33 0 0) = true := by decide

/-- 00 AB FF gives "00abff". -/
theorem test_hexEncode_high_nibble_first :
    after (exec .hexEncode (loaded small [0x00, 0xAB, 0xFF] [])) (gives [0x30, 0x30, 0x61, 0x62, 0x66, 0x66]) = true := by decide

/-- At MAX_IN = 1 a length of 2 is CAPACITY. -/
theorem test_hexEncode_capacity : after (exec .hexEncode (loaded tiny [0x00, 0x00] [])) (reports 0x53 0 0) = true := by decide

/-- An illegal word with LEN_A = 0xFFFFFFFF is ILLEGAL_OP. -/
theorem test_illegal_before_capacity :
    after (performCommand 0x00000006 ((State.resetOf small).setLenA 0xFFFFFFFF)) (reports 0x43 0 0) = true := by decide

/-- The source's scenario 2, first nine octets of each operand's 18: "1c0111001f010100" with "6869742074686520" gives
"746865206b696420". -/
theorem test_xorHexFn_scenario2 :
    xorHexFn [0x31, 0x63, 0x30, 0x31, 0x31, 0x31, 0x30, 0x30, 0x31, 0x66, 0x30, 0x31, 0x30, 0x31, 0x30, 0x30]
        [0x36, 0x38, 0x36, 0x39, 0x37, 0x34, 0x32, 0x30, 0x37, 0x34, 0x36, 0x38, 0x36, 0x35, 0x32, 0x30]
      = .done [0x37, 0x34, 0x36, 0x38, 0x36, 0x35, 0x32, 0x30, 0x36, 0x62, 0x36, 0x39, 0x36, 0x34, 0x32, 0x30] := by decide

/-! ## The bus, from 95_test_vectors.md 2.9 and 2.10 -/

/-- A word write of 0x11223344 puts 0x44 in the first octet and 0x11 in the fourth. -/
theorem test_word_write_lanes :
    after (step ((State.resetOf small).issue (.write (0x80000 + 0x10004) 4 0x11223344)))
      (fun t => hostOctet t 0x10004 == some 0x44 && hostOctet t 0x10007 == some 0x11 && t.responses == [.writeDone]) = true := by decide

/-- "4d61" in BUF_A[0..4) reads as 0x31366434. -/
theorem test_word_read_lanes :
    after (step ((loaded small [0x34, 0x64, 0x36, 0x31] []).issue (.read (0x80000 + 0x10000) 4)))
      (fun t => t.responses == [.readData 0x31366434]) = true := by decide

/-- MAX_IN = 1: a word write stores lane 0 alone, and lanes 1 to 3 read 0. -/
theorem test_word_straddles_capacity :
    after (step ((State.resetOf tiny).issue (.write 0x10000 4 0x44332211)))
      (fun t => t.mem == [(0x10000, 0x11)] && hostOctet t 0x10001 == some 0) = true := by decide

/-- Size 2, a misaligned word, and an octet of a register are refused. -/
theorem test_bus_errors :
    after (step ((State.resetOf small).issue (.read (0x80000 + 0x10000) 2))) (fun t => t.responses == [.readBusError]) = true
      ∧ after (step ((State.resetOf small).issue (.write (0x80000 + 0x00002) 4 5)))
          (fun t => t.responses == [.writeBusError] && t.status == 0) = true
      ∧ after (step ((State.resetOf small).issue (.read (0x80000 + 0x00004) 1))) (fun t => t.responses == [.readBusError]) = true := by
  decide

/-- CAP_IN and CAP_OUT of the reference block. -/
theorem test_capacity_registers :
    after (step (State.reset.issue (.read 0x1C 4))) (fun t => t.responses == [.readData 0x1000]) = true
      ∧ after (step (State.reset.issue (.read 0x20 4))) (fun t => t.responses == [.readData 0x2000]) = true := by decide

/-- Reset, then a read of BUF_A[0], or of BUF_OUT before any command, faults. -/
theorem test_unwritten_read_faults :
    faults (step (State.reset.issue (.read 0x10000 1))) (.unwrittenOctet 0x10000) = true
      ∧ faults (step (State.reset.issue (.read 0x30000 4))) (.unwrittenOctet 0x30000) = true := by decide

/-- A reset with LEN_A = 6 and STATUS 1 beforehand: every register as after reset, every octet unwritten again. -/
theorem test_reset_event :
    after (step ({ loaded small [0x34] [] with lenA := 6, status := 1 }.issue .reset))
      (fun t => t.lenA == 0 && t.status == 0 && hostOctet t 0x10000 == none && t.cfg == small) = true := by decide

/-- Reset, then CMD HEX_DECODE with no other write: the reset length gives an empty operand. -/
theorem test_first_command_after_reset :
    after (step (State.reset.withFetchWord 32 1)) (fun t => t.status == 1 && t.lenOut == 0 && t.responses == [.writeDone]) = true := by
  decide

/-- LOADA [41, 42] expands to two octet writes and a length write. -/
theorem test_loadA_lines :
    loadA small [0x41, 0x42] = [.write 0x90000 1 0x41, .write 0x90001 1 0x42, .write 0x80008 4 2] := by decide

/-- The observation after a success holds the result, and the answers to reads alone. -/
theorem test_observe :
    after (exec .hexEncode ((loaded small [0xAB] []).respond .writeDone))
      (fun t => (observe t).result == some [some 0x61, some 0x62] && (observe t).reads == []
        && (observe t).written == [(0x10000, 0xAB)]) = true := by decide

/-! ## Witnesses: states and operands that meet the hypotheses of each statement, each clause at a boundary of its range -/

theorem witness_legal : State.reset.cfg.legal = true ∧ (loaded small [] []).cfg.legal = true ∧ (loaded tiny [] []).cfg.legal = true := by
  decide

theorem witness_DecodeEncodeAgree : Instr.xorHex.wellFormed = true ∧ decode 0x00000004 = .command .xorHex := by decide

theorem witness_ExactlyFiveWordsAreCommands :
    (0x00000006 : Word) ≠ 1 ∧ (0x00000006 : Word) ≠ 2 ∧ (0x00000006 : Word) ≠ 3 ∧ (0x00000006 : Word) ≠ 4 ∧ (0x00000006 : Word) ≠ 5 := by
  decide

theorem witness_StepRunsDecodedCommand :
    State.reset.cfg.legal = true ∧ decode 0x00000005 = .command .hexEncode ∧ ∃ t, exec .hexEncode State.reset = .next t :=
  ⟨by decide, by decide, _, rfl⟩

theorem witness_IllegalWordIsPerformedAsIllegalOp :
    (0x00000011 : Word).extractLsb' 4 28 ≠ 0 ∧ ((0x00000000 : Word).extractLsb' 0 4).toNat = 0
      ∧ 6 ≤ ((0x00000006 : Word).extractLsb' 0 4).toNat ∧ 6 ≤ ((0x0000000F : Word).extractLsb' 0 4).toNat := by decide

/-- HEX_DECODE and HEX_TO_B64: one octet above capacity, an odd length at capacity, a bad digit at the last index, all digits at
capacity, and the empty operand. -/
theorem witness_HexDecodeCompletes :
    small.maxIn < ((State.resetOf small).setLenA 9).lenA.toNat
      ∧ (¬ tiny.maxIn < (loaded tiny [0x30] []).lenA.toNat ∧ (loaded tiny [0x30] []).lenA.toNat % 2 = 1)
      ∧ (1 < (loaded small [0x30, 0x67] []).lenA.toNat ∧ hexVal (octetA (loaded small [0x30, 0x67] []) 1) = none
          ∧ ∀ j < 1, hexVal (octetA (loaded small [0x30, 0x67] []) j) ≠ none)
      ∧ ((loaded small [0x30, 0x39, 0x41, 0x46, 0x61, 0x66, 0x30, 0x30] []).lenA.toNat = small.maxIn
          ∧ ∀ i < 8, hexVal (octetA (loaded small [0x30, 0x39, 0x41, 0x46, 0x61, 0x66, 0x30, 0x30] []) i) ≠ none)
      ∧ ∀ i < (State.resetOf small).lenA.toNat, hexVal (octetA (State.resetOf small) i) ≠ none := by decide

theorem witness_HexToB64Completes :
    after (exec .hexToB64 ((State.resetOf small).setLenA 9)) (reports 0x53 0 0) = true
      ∧ after (exec .hexToB64 (loaded tiny [0x30] [])) (reports 0x13 0 0) = true
      ∧ after (exec .hexToB64 (loaded small [0x30, 0x67] [])) (reports 0x23 1 0x67) = true
      ∧ after (exec .hexToB64 (State.resetOf small)) (gives []) = true := by decide

/-- B64_ENCODE and HEX_ENCODE: above capacity, at capacity, and empty. -/
theorem witness_B64EncodeCompletes_HexEncodeCompletes :
    tiny.maxIn < (loaded tiny [0, 0] []).lenA.toNat ∧ ¬ tiny.maxIn < (loaded tiny [0] []).lenA.toNat
      ∧ ¬ tiny.maxIn < (State.resetOf tiny).lenA.toNat := by decide

/-- XOR_HEX and the order of the checks: each check in turn is the first that fails, and none. -/
theorem witness_XorHexCompletes_FirstFailedCheckIsReported :
    after (performCommand 0x00000000 (loaded small [0x30] [])) (reports 0x43 0 0) = true
      ∧ after (exec .xorHex ((loaded small [0x30, 0x30] []).setLenB 9)) (reports 0x53 0 0) = true
      ∧ after (exec .xorHex (loaded small [0x7A] [])) (reports 0x33 0 0) = true
      ∧ after (exec .xorHex (loaded small [0x7A] [0x7A])) (reports 0x13 0 0) = true
      ∧ after (exec .xorHex (loaded small [0x30, 0x67] [0x67, 0x30])) (reports 0x23 1 0x67) = true
      ∧ after (exec .xorHex (loaded small [0x30, 0x30] [0x67, 0x30])) (reports 0x23 0 0x167) = true
      ∧ after (exec .xorHex (State.resetOf small)) (gives []) = true := by decide

/-- The frame: a command and a word that end in a next state. -/
theorem witness_CommandWritesOnlyReportAndBufOut :
    (∃ t, exec .xorHex (loaded small [0x30, 0x31] [0x32, 0x33]) = .next t) ∧ ∃ t, performCommand 0xFFFFFFFF State.reset = .next t :=
  ⟨⟨_, rfl⟩, _, rfl⟩

/-- Two states that differ in STATUS, in octets outside the operand, and in LEN_B, and agree on operand A. -/
theorem witness_OutcomeDependsOnOperandsAlone :
    (loaded small [0x30, 0x31] []).lenA = { loaded small [0x30, 0x31] [0x41] with status := 0x43 }.lenA
      ∧ (∀ k < 2, octetA (loaded small [0x30, 0x31] []) k = octetA { loaded small [0x30, 0x31] [0x41] with status := 0x43 } k)
      ∧ (Instr.hexDecode = .xorHex → False)
      ∧ ∀ k < 1, octetB (loaded small [0x30] [0x41]) k = octetB { loaded small [0x30] [0x41] with status := 0x43 } k := by decide

theorem witness_RepeatedCommandGivesSameOutcome :
    ∃ t u, performCommand 1 (loaded small [0x7A, 0x7A] []) = .next t ∧ performCommand 1 t = .next u :=
  ⟨_, _, rfl, rfl⟩

/-- ResultAlwaysFitsBufOut, EveryBufOutOctetHasAValueAfterACommand, StatusFieldsAfterEveryCommand: a success whose result ends below capacity,
and one that fills it. -/
theorem witness_after_a_word :
    after (performCommand 1 (loaded small [0x34, 0x64] [])) (fun t => t.lenOut.toNat ≤ 1 && 1 < small.maxOut && t.lenOut == 1) = true
      ∧ after (performCommand 2 (loaded tiny [0x00] [])) (fun t => t.lenOut.toNat == tiny.maxOut) = true := by decide

theorem witness_UnwrittenOperandOctetIsReadWithoutError :
    ((State.resetOf small).setLenA 8).lenA.toNat ≤ small.maxIn ∧ 7 < ((State.resetOf small).setLenA 8).lenA.toNat
      ∧ ((State.resetOf small).setLenA 8).mem.read (0x10000 + 7) = none
      ∧ ((State.resetOf small).setLenB 8).mem.read (0x20000 + 7) = none ∧ 0x20000 + 7 < 0x30000 := by decide

theorem witness_DoneIsClearedOnlyByReset :
    after (step ({ State.reset with status := 1 }.issue .reset)) (fun t => statusDone 1 && !statusDone t.status) = true
      ∧ after (step ({ State.reset with status := 1 }.issue (.resetDuringCommand 5))) (fun t => !statusDone t.status) = true := by decide

theorem witness_LengthRegistersStoreAnyValue :
    small.maxIn < ((State.resetOf small).setLenA 9).lenA.toNat
      ∧ (Instr.xorHex = .xorHex ∧ small.maxIn < ((State.resetOf small).setLenB 9).lenB.toNat) ∧ Instr.hexEncode ≠ .xorHex
      ∧ ∃ t u, exec .hexEncode State.reset = .next t ∧ exec .hexEncode { State.reset with lenB := 7 } = .next u :=
  ⟨by decide, by decide, by decide, _, _, rfl, rfl⟩

/-- AcceptedExactlyInTheTwoForms and RefusedAccessHasNoEffect: both forms at their edges, and just outside them. -/
theorem witness_accepted_and_refused :
    accepted 0x00000 4 = true ∧ accepted 0x7FFFC 4 = true ∧ accepted 0x10000 1 = true ∧ accepted 0x4FFFF 1 = true
      ∧ accepted 0x0FFFF 1 = false ∧ accepted 0x50000 1 = false ∧ accepted 0x7FFFE 4 = false ∧ accepted 0x10000 2 = false
      ∧ accepted 0x10000 0 = false ∧ accepted 0x10000 8 = false := by decide

theorem witness_ReservedOffsetsReadZeroIgnoreWrites :
    placeOf 0x00024 = .reserved ∧ placeOf 0x0FFFC = .reserved ∧ placeOf 0x50000 = .reserved ∧ placeOf 0x7FFFC = .reserved
      ∧ 0x7FFFC % 4 = 0 := by decide

/-- A word inside the buffer, and one that straddles its end; then an octet at an odd offset beside unwritten ones, and the last octet of
the windows. -/
theorem witness_WordReadIsFourOctetReads :
    (hostOctet (loaded small [1, 2, 3, 4] []) 0x10000 = some 1 ∧ hostOctet (loaded small [1, 2, 3, 4] []) 0x10001 = some 2
        ∧ hostOctet (loaded small [1, 2, 3, 4] []) 0x10002 = some 3 ∧ hostOctet (loaded small [1, 2, 3, 4] []) 0x10003 = some 4)
      ∧ hostOctet (loaded tiny [1] []) 0x10000 = some 1 ∧ hostOctet (loaded tiny [1] []) 0x10001 = some 0
      ∧ hostOctet (loaded tiny [1] []) 0x10002 = some 0 ∧ hostOctet (loaded tiny [1] []) 0x10003 = some 0
      ∧ hostOctet (loaded small [1, 2] []) 0x10001 = some 2 ∧ hostOctet (loaded small [1, 2] []) 0x10002 = none
      ∧ hostOctet (loaded small [] []) 0x4FFFF = some 0 := by decide

/-- BufferWriteStoresItsLanes and HostWritesToBufOutAreIgnored: a word at the end of a window, an octet at the end of BUF_B. -/
theorem witness_BufferWriteStoresItsLanes :
    (0x4FFFC % 4 = 0 ∧ 0x10000 ≤ 0x4FFFC ∧ 0x4FFFC ≤ 0x4FFFC)
      ∧ after (step ((State.resetOf small).issue (.write (0x80000 + 0x20007) 1 0x1FF))) (fun t => t.mem == [(0x20007, 0xFF)]) = true
      ∧ after (step ((State.resetOf small).issue (.write (0x80000 + 0x30000) 4 1))) (fun t => t.mem == []) = true := by decide

theorem witness_BeyondCapacityReadsZeroIgnoresWrites :
    0x10000 + small.maxIn ≤ 0x10008 ∧ 0x20000 + small.maxIn ≤ 0x2FFFF ∧ 0x30000 + small.maxOut ≤ 0x30010 ∧ 0x4FFFF < 0x50000 := by decide

theorem witness_ReadsHaveNoSideEffect : ∃ t, step (State.reset.issue (.read 0x4 4)) = .next t := ⟨_, rfl⟩

/-- A word whose third lane is the first with no value. -/
theorem witness_HostReadOfUnwrittenOctetFaults :
    hostOctet (loaded small [1, 2] []) (0x10000 + 2) = none ∧ (∀ j < 2, hostOctet (loaded small [1, 2] []) (0x10000 + j) ≠ none)
      ∧ faults (step ((loaded small [1, 2] []).issue (.read (0x80000 + 0x10000) 4))) (.unwrittenOctet 0x10002) = true := by decide

theorem witness_OnlyUnwrittenHostReadsFault : ∃ f, step (State.reset.issue (.read 0x1FFFF 1)) = .fault f
    ∨ step (State.reset.issue (.read 0x20000 1)) = .fault f := ⟨_, .inr rfl⟩

theorem witness_AccessOutsideTheWindowHasNoEffect : 0x7FFFF < small.base ∧ small.base + 0x80000 ≤ 0x100000 := by decide

theorem witness_ResetEventPutsTheResetState :
    after (step (State.reset.issue .reset)) (fun t => t.resets != State.reset.resets) = true
      ∧ after (step (State.reset.issue (.resetDuringCommand 1))) (fun t => t.resets != State.reset.resets) = true := by decide

theorem witness_IdleBlockHoldsItsState : State.reset.cfg.legal = true ∧ State.reset.script = [] := by decide

theorem witness_IllegalLaunchIsRefused :
    refuses (step (State.resetOf ⟨0, 0, 1⟩)) .illegalMaxIn = true ∧ refuses (step (State.resetOf ⟨65537, 0, 1⟩)) .illegalMaxIn = true
      ∧ refuses (step (State.resetOf ⟨65536, 1, 1⟩)) .illegalBase = true
      ∧ refuses (step (State.resetOf ⟨1, 0x80000, 2⟩)) .severalMasters = true := by decide

/-- A length write after a command. -/
theorem witness_ResultLastsUntilNextCommandOrReset :
    (∃ t, step ({ State.reset with status := 1 }.issue (.write 0x8 4 5)) = .next t)
      ∧ HostEvent.write 0x8 4 5 ≠ .reset ∧ (HostEvent.write 0x8 4 5).casesOn (fun _ _ => True) (fun a _ _ => a ≠ 0) True (fun _ => True) :=
  ⟨⟨_, rfl⟩, by decide, by decide⟩

/-- A state with a listed result, which meets the invariant and takes a next step. -/
def afterEncode : State :=
  { loaded small [0xAB] [] with
    status := 1
    lenOut := 2
    draws := 1
    mem := [(0x10000, 0xAB), (0x30000, 0x61), (0x30001, 0x62)] }

theorem witness_StepKeepsInv :
    State.reset.Inv ∧ afterEncode.Inv ∧ ∃ t, step (afterEncode.issue (.write 0x80000 4 1)) = .next t := ⟨by decide, by decide, _, rfl⟩

theorem witness_ReachableStatesMeetInv : small.legal = true ∧ Reachable small (launch small [.write 0x80000 4 5, .reset]) :=
  ⟨by decide, .clean _⟩

theorem witness_HexDecodeFnIsCompleteOrRaises :
    hexDecodeFn [0x46, 0x66] .b = .done [0xFF] ∧ 2 * 0 + 1 < [0x46, 0x66].length ∧ [0x61].length % 2 = 1 := by decide

/-- HEX_ENCODE of [AB] at MAX_IN = 8, and a state whose operand A is its result "ab". -/
theorem witness_HexEncodeThenHexDecodeIsIdentity :
    2 * (loaded small [0xAB] []).lenA.toNat ≤ small.maxIn
      ∧ after (exec .hexEncode (loaded small [0xAB] [])) (fun t =>
          (loaded small [0x61, 0x62] []).lenA == t.lenOut
            && (List.range 2).all (fun k => resultOctet t k == some (octetA (loaded small [0x61, 0x62] []) k))) = true := by decide

theorem witness_Base64PaddingLaw :
    (b64EncodeFn [0x4D])[2]? = some 0x3D ∧ [0x4D].length % 3 = 1 ∧ 2 < (b64EncodeFn [0x4D]).length
      ∧ (b64EncodeFn [0x4D, 0x61])[3]? = some 0x3D ∧ (b64EncodeFn [0x4D, 0x61])[2]? = some 0x45
      ∧ (b64EncodeFn [0x4D, 0x61, 0x6E])[3]? = some 0x75 := by decide

theorem witness_Base64OutputAlphabet : (0x3D : Byte) ∈ b64EncodeFn [0x00] ∧ (0x2F : Byte) ∈ b64EncodeFn [0xFF] := by decide

theorem witness_HexOutputIsLowercase :
    after (exec .xorHex (loaded small [0x41, 0x42] [0x30, 0x30])) (fun t => 1 < t.lenOut.toNat && gives [0x61, 0x62] t) = true
      ∧ after (exec .hexEncode (loaded small [0xAB] [])) (fun t => 1 < t.lenOut.toNat) = true := by decide

/-- "ab" and "01": lowercase; "AB" and "01": valid, not lowercase. -/
theorem witness_XorHexInvolution_XorHexSymmetry :
    (∀ c ∈ ([0x61, 0x62] : List Byte), hexVal c ≠ none) ∧ (∀ c ∈ ([0x30, 0x31] : List Byte), hexVal c ≠ none)
      ∧ (∀ c ∈ ([0x61, 0x62] : List Byte), c.toNat < 0x41 ∨ 0x46 < c.toNat)
      ∧ (∀ c ∈ ([0x41, 0x42] : List Byte), hexVal c ≠ none)
      ∧ ([0x61, 0x62] : List Byte).length = ([0x30, 0x31] : List Byte).length ∧ ([0x61] : List Byte).length ≠ ([] : List Byte).length := by
  decide

theorem witness_ReadingTheResultAfterSuccessIsSafe :
    afterEncode.Inv ∧ afterEncode.status = 0x00000001 ∧ 1 < afterEncode.lenOut.toNat
      ∧ after (step (afterEncode.issue (.read (0x80000 + 0x30001) 1))) (fun t => t.responses == [.readData 0x62]) = true := by decide

theorem witness_DutifulHostDrawsNoBusErrorAndNoIllegalOp :
    dutifulEvent small (.write 0x80000 4 5) = true ∧ dutifulEvent small (.write 0x80000 4 6) = false
      ∧ dutifulEvent small (.write 0x80024 4 0) = true ∧ dutifulEvent small (.write 0x80024 4 1) = false
      ∧ dutifulEvent small (.read 0x80004 1) = false ∧ afterEncode.status ≠ 0x43
      ∧ (∃ t, step (afterEncode.issue (.write 0x80000 4 5)) = .next t)
      ∧ { State.resetOf small with status := 0x43 }.Inv
      ∧ after (step ({ State.resetOf small with status := 0x43 }.issue (.write (small.base + 0x000) 4 5)))
          (fun t => t.status != 0x43) = true :=
  ⟨by decide, by decide, by decide, by decide, by decide, by decide, ⟨_, rfl⟩, by decide, by decide⟩

theorem witness_LoadaPutsItsOctetsIntoOperandA :
    ((State.resetOf small).setScript (loadA small [0x41, 0x42] ++ [.reset])).script = loadA small [0x41, 0x42] ++ [.reset]
      ∧ [0x41, 0x42].length ≤ small.maxIn := by decide

/-- With as many octets as BUF_B holds. -/
theorem witness_LoadbPutsItsOctetsIntoOperandB :
    ((State.resetOf tiny).setScript (loadB tiny [0x41] ++ [.reset])).script = loadB tiny [0x41] ++ [.reset]
      ∧ [0x41].length = tiny.maxIn ∧ (State.resetOf tiny).cfg.legal = true := by decide

theorem witness_CommandKeepsTheHostsRecordAndMakesOneDraw :
    (∃ t, exec .hexEncode State.reset = .next t) ∧ ∃ t, performCommand 0 State.reset = .next t := ⟨⟨_, rfl⟩, _, rfl⟩

end Sys2Proof.Tests
end

section
/-! SUPPORT. How long the result of each transformation is, and that the result of every command fits BUF_OUT (R8). -/

namespace Sys2Proof.Machine

@[simp] theorem assemblePairs_length (a : List Byte) : (assemblePairs a).length = a.length / 2 := by
  induction a using assemblePairs.induct with
  | case1 hi lo rest ih =>
    simp only [assemblePairs, List.length_cons, ih]
    omega
  | case2 b => simp [assemblePairs]
  | case3 => rfl

@[simp] theorem b64EncodeFn_length (a : List Byte) : (b64EncodeFn a).length = 4 * ((a.length + 2) / 3) := by
  induction a using b64EncodeFn.induct with
  | case1 => rfl
  | case2 b0 => simp [b64EncodeFn]
  | case3 b0 b1 => simp [b64EncodeFn]
  | case4 b0 b1 b2 rest ih =>
    simp only [b64EncodeFn, List.length_cons, ih]
    omega

@[simp] theorem hexEncodeFn_length (a : List Byte) : (hexEncodeFn a).length = 2 * a.length := by
  induction a with
  | nil => rfl
  | cons b a ih =>
    simp only [hexEncodeFn, List.length_cons, ih]
    omega

/-- A decode that succeeds gives the assembled pairs (R105). -/
theorem hexDecodeFn_eq_done {a out : List Byte} {o : Operand} (h : hexDecodeFn a o = .done out) : out = assemblePairs a := by
  unfold hexDecodeFn at h
  split at h
  · exact nomatch h
  · split at h
    · exact nomatch h
    · injection h with h
      exact h.symm

theorem hexDecodeFn_done_length {a out : List Byte} {o : Operand} (h : hexDecodeFn a o = .done out) :
    out.length = a.length / 2 := by
  rw [hexDecodeFn_eq_done h, assemblePairs_length]

theorem hexToB64Fn_done_length {a out : List Byte} (h : hexToB64Fn a = .done out) :
    out.length = 4 * ((a.length / 2 + 2) / 3) := by
  unfold hexToB64Fn at h
  split at h
  · rename_i mid hmid
    injection h with h
    rw [← h, b64EncodeFn_length, hexDecodeFn_done_length hmid]
  · exact nomatch h

theorem xorHexFn_done_length {a b out : List Byte} (h : xorHexFn a b = .done out) : out.length ≤ a.length := by
  unfold xorHexFn at h
  split at h
  · split at h
    · exact nomatch h
    · rename_i x hx
      split at h
      · exact nomatch h
      · rename_i y hy
        injection h with h
        have hxlen := hexDecodeFn_done_length hx
        rw [← h, hexEncodeFn_length, xorFn, List.length_zipWith]
        omega
  · exact nomatch h

/-- A command of operand A that succeeds had a LEN_A within capacity. -/
theorem withOperandA_eq_done {s : State} {f : List Byte → CmdResult} {out : List Byte} (h : withOperandA s f = .done out) :
    s.lenA.toNat ≤ s.cfg.maxIn ∧ f (operandA s) = .done out := by
  by_cases hfit : s.lenA.toNat ≤ s.cfg.maxIn
  · exact ⟨hfit, withOperandA_fits f hfit ▸ h⟩
  · rw [withOperandA_over f (Nat.not_le.1 hfit)] at h
    exact nomatch h

/-- A command of both operands that succeeds had both lengths within capacity. -/
theorem withOperandsAB_eq_done {s : State} {f : List Byte → List Byte → CmdResult} {out : List Byte}
    (h : withOperandsAB s f = .done out) :
    s.lenA.toNat ≤ s.cfg.maxIn ∧ s.lenB.toNat ≤ s.cfg.maxIn ∧ f (operandA s) (operandB s) = .done out := by
  by_cases hover : s.cfg.maxIn < s.lenA.toNat ∨ s.cfg.maxIn < s.lenB.toNat
  · rw [withOperandsAB_over f hover] at h
    exact nomatch h
  · obtain ⟨ha, hb⟩ := not_or.1 hover
    have ha := Nat.not_lt.1 ha
    have hb := Nat.not_lt.1 hb
    exact ⟨ha, hb, withOperandsAB_fits f ha hb ▸ h⟩

/-- No command's result is longer than BUF_OUT (R8). The tight cases are HEX_ENCODE, and B64_ENCODE of one octet or of four. -/
theorem runCommand_done_fits {i : Instr} {s : State} {out : List Byte} (h : runCommand i s = .done out) :
    out.length ≤ s.cfg.maxOut := by
  simp only [Config.maxOut]
  cases i <;> simp only [runCommand] at h
  case hexDecode =>
    obtain ⟨hfit, hout⟩ := withOperandA_eq_done h
    have hlen := hexDecodeFn_done_length hout
    rw [operandA_length] at hlen
    omega
  case b64Encode =>
    obtain ⟨hfit, hout⟩ := withOperandA_eq_done h
    injection hout with hout
    rw [← hout, b64EncodeFn_length, operandA_length]
    omega
  case hexToB64 =>
    obtain ⟨hfit, hout⟩ := withOperandA_eq_done h
    have hlen := hexToB64Fn_done_length hout
    rw [operandA_length] at hlen
    omega
  case xorHex =>
    obtain ⟨hfit, _, hout⟩ := withOperandsAB_eq_done h
    have hlen := xorHexFn_done_length hout
    rw [operandA_length] at hlen
    omega
  case hexEncode =>
    obtain ⟨hfit, hout⟩ := withOperandA_eq_done h
    injection hout with hout
    rw [← hout, hexEncodeFn_length, operandA_length]
    omega

theorem runWord_done_fits {w : Word} {s : State} {out : List Byte} (h : runWord w s = .done out) :
    out.length ≤ s.cfg.maxOut := by
  unfold runWord at h
  split at h
  · exact runCommand_done_fits h
  · exact nomatch h

end Sys2Proof.Machine
end

section
/-! SUPPORT. The host's next event as a step, the register accesses, and what every step keeps. -/

namespace Sys2Proof.Machine

/-- The step of a legal launch performs the issued event. -/
theorem step_issue {s : State} (hl : s.cfg.legal = true) (e : HostEvent) : step (s.issue e) = performEvent s e :=
  step_of_legal (s := s.issue e) hl

theorem Reg.offset_lt_aperture (r : Reg) : r.offset < 0x80000 := by cases r <;> decide

@[simp] theorem accepted_regWord (r : Reg) : accepted r.offset 4 = true := by cases r <;> decide

@[simp] theorem placeOf_regOffset (r : Reg) : placeOf r.offset = .reg r := by cases r <;> rfl

/-- A word read of a register returns its value and changes nothing else (R59, R60). -/
theorem step_issue_readReg {s : State} (hl : s.cfg.legal = true) (r : Reg) :
    step (s.issue (.read (s.cfg.base + r.offset) 4)) = .next (s.respond (.readData (readReg s r))) := by
  simp only [step_issue hl, performEvent, blockOffset_busAddress _ r.offset_lt_aperture, hostRead, accepted_regWord, readAt,
    placeOf_regOffset, ↓reduceIte]

/-- A word write to a register other than CMD is that register's write, then the completion (R59). -/
theorem step_issue_writeReg {s : State} (hl : s.cfg.legal = true) {r : Reg} (hr : r ≠ .cmd) (v : Word) :
    step (s.issue (.write (s.cfg.base + r.offset) 4 v)) = .next ((writeReg s r v).respond .writeDone) := by
  have hplace : Place.reg r ≠ .reg .cmd := fun h => hr (Place.reg.inj h)
  simp only [step_issue hl, performEvent, blockOffset_busAddress _ r.offset_lt_aperture, hostWrite, accepted_regWord, ↓reduceIte,
    placeOf_regOffset, if_neg hplace, completeWrite, writeAt]

/-- A host write to any place but CMD keeps the parameters and STATUS. -/
theorem writeAt_keeps_cfg_status {s : State} (hl : s.cfg.legal = true) (off size : Nat) (v : Word) :
    (writeAt s off size v).cfg = s.cfg ∧ (writeAt s off size v).status = s.status := by
  rcases writeAt_cases s off size v hl with h | h | ⟨m, h, _⟩ <;> exact h ▸ ⟨rfl, rfl⟩

/-- No step changes the parameters (R34, R35). -/
theorem step_keeps_cfg {s t : State} (h : step s = .next t) : t.cfg = s.cfg := by
  have hl := legal_of_step_next h
  rcases step_cases h with ⟨_, rfl⟩ | ⟨e, rest, _, rfl | ⟨r, rfl⟩ | ⟨w, rfl⟩ | ⟨off, size, v, _, _, rfl⟩ | ⟨_, rfl⟩⟩
  · rfl
  · rfl
  · rfl
  · exact State.finish_cfg ..
  · exact (writeAt_keeps_cfg_status (s := s.setScript rest) hl off size v).1
  · rfl

/-- A step keeps DONE set unless its event is a reset (R26). -/
theorem step_keeps_done_or_resets {s t : State} (h : step s = .next t) (hdone : statusDone s.status = true) :
    statusDone t.status = true ∨ ∃ e rest, s.script = e :: rest ∧ (e = .reset ∨ ∃ w, e = .resetDuringCommand w) := by
  have hl := legal_of_step_next h
  rcases step_cases h with ⟨_, rfl⟩ | ⟨e, rest, hs, rfl | ⟨r, rfl⟩ | ⟨w, rfl⟩ | ⟨off, size, v, _, _, rfl⟩ | ⟨he, _⟩⟩
  · exact .inl hdone
  · exact .inl hdone
  · exact .inl hdone
  · exact .inl (statusDone_finish ..)
  · have hstatus := (writeAt_keeps_cfg_status (s := s.setScript rest) hl off size v).2
    exact .inl (by rw [State.respond_status, hstatus]; exact hdone)
  · exact .inr ⟨e, rest, hs, he⟩

/-- Offsets past the end of BUF_OUT read 0 in every state: padding of the window (R58), then reserved words (R57). -/
theorem hostOctet_past_bufOut {s : State} {off : Nat} (h : 0x30000 + s.cfg.maxOut ≤ off) : hostOctet s off = some 0 := by
  rcases placeOf_cases off with ⟨_, _⟩ | ⟨i, _, rfl, _⟩ | ⟨i, _, rfl, _⟩ | ⟨i, _, rfl, hp⟩ | ⟨_, hp⟩
  · omega
  · omega
  · omega
  · simp only [hostOctet, hp]
    rw [if_neg (by omega)]
  · simp only [hostOctet, hp]

/-- A command's end leaves every octet outside BUF_OUT as the host reads it. -/
theorem finish_hostOctet_outside {s : State} {r : CmdResult} (hfit : ∀ out, r = .done out → out.length ≤ s.cfg.maxOut)
    {off : Nat} (ho : off < 0x30000 ∨ 0x30000 + s.cfg.maxOut ≤ off) : hostOctet (s.finish r) off = hostOctet s off := by
  rcases ho with hlow | hpast
  · exact hostOctet_congr (State.finish_cfg s r) (finish_read_outside s r (.inl hlow) hfit) (by omega)
  · rw [hostOctet_past_bufOut hpast, hostOctet_past_bufOut (by rwa [State.finish_cfg])]

/-- The next state of a command is the report of its result. -/
theorem eq_finish_of_exec_next {i : Instr} {s t : State} (h : exec i s = .next t) : t = s.finish (runCommand i s) := by
  rw [exec_eq_finish] at h
  injection h with h
  exact h.symm

/-- The next state of a CMD word is the report of its result. -/
theorem eq_finish_of_performCommand_next {w : Word} {s t : State} (h : performCommand w s = .next t) :
    t = s.finish (runWord w s) := by
  rw [performCommand_eq_finish] at h
  injection h with h
  exact h.symm

/-- A command or a CMD word that answers a next state answers the report of a result that fits BUF_OUT. -/
theorem command_next_cases {s t : State} {w : Word} {i : Instr} (h : exec i s = .next t ∨ performCommand w s = .next t) :
    ∃ r, t = s.finish r ∧ ∀ out, r = .done out → out.length ≤ s.cfg.maxOut := by
  rcases h with h | h
  · exact ⟨_, eq_finish_of_exec_next h, fun _ => runCommand_done_fits⟩
  · exact ⟨_, eq_finish_of_performCommand_next h, fun _ => runWord_done_fits⟩

/-- Every command but XOR_HEX has the form of a command that uses operand A alone (R30, R40). -/
theorem runCommand_eq_withOperandA {i : Instr} (hi : i ≠ .xorHex) : ∃ f, ∀ s, runCommand i s = withOperandA s f := by
  cases i with
  | xorHex => exact absurd rfl hi
  | hexDecode => exact ⟨fun a => hexDecodeFn a .a, fun _ => rfl⟩
  | b64Encode => exact ⟨fun a => .done (b64EncodeFn a), fun _ => rfl⟩
  | hexToB64 => exact ⟨hexToB64Fn, fun _ => rfl⟩
  | hexEncode => exact ⟨fun a => .done (hexEncodeFn a), fun _ => rfl⟩

/-- A length the command uses above MAX_IN is CAPACITY, before any octet is looked at (R29, R30, R164). -/
theorem runCommand_over {i : Instr} {s : State}
    (h : s.cfg.maxIn < s.lenA.toNat ∨ (i = .xorHex ∧ s.cfg.maxIn < s.lenB.toNat)) :
    runCommand i s = .raised (plainError .capacity) := by
  by_cases hi : i = .xorHex
  · subst hi
    exact withOperandsAB_over xorHexFn (h.imp_right And.right)
  · obtain ⟨f, hf⟩ := runCommand_eq_withOperandA hi
    rw [hf, withOperandA_over f (h.resolve_right fun hb => hi hb.1)]

/-- Only XOR_HEX looks at LEN_B (R30). -/
theorem runCommand_setLenB {i : Instr} (hi : i ≠ .xorHex) (s : State) (v : Word) :
    runCommand i (s.setLenB v) = runCommand i s := by
  obtain ⟨f, hf⟩ := runCommand_eq_withOperandA hi
  rw [hf, hf]
  rfl

theorem finish_setLenB (s : State) (v : Word) (r : CmdResult) : (s.setLenB v).finish r = (s.finish r).setLenB v := by
  cases r <;> rfl

theorem takeError_capacity_failedWith (s : State) : FailedWith (s.takeError (plainError .capacity)) 0x00000053 0 0 :=
  ⟨by rw [State.takeError_status]; decide, rfl, rfl, by rw [State.takeError_errInfo]; decide⟩

end Sys2Proof.Machine
end

section
/-! The statements about the state's registers and the frame of the commands (spec/10_state.md). -/

namespace Sys2Proof.Machine

/-- Settles O12: every command ends in `finish` of a result that fits BUF_OUT, and `finish` leaves everything else alone. -/
theorem commandWritesOnlyReportAndBufOut : Obligations.CommandWritesOnlyReportAndBufOut := by
  intro s t w i _ h
  obtain ⟨r, rfl, hfit⟩ := command_next_cases h
  have hcfg := State.finish_cfg s r
  refine ⟨State.finish_lenA s r, State.finish_lenB s r, ?_, ?_, ?_, ?_, hcfg⟩
  · simp only [readReg, hcfg]
  · simp only [readReg, hcfg]
  · exact fun a ha => finish_read_outside s r ha hfit
  · exact fun a ha => finish_hostOctet_outside hfit ha

/-- Settles O18, by the cases of a step: only its reset case clears DONE. -/
theorem doneIsClearedOnlyByReset : Obligations.DoneIsClearedOnlyByReset := by
  refine ⟨fun c => ?_, fun s t w h => ?_, fun s hl => step_issue_readReg hl .status, fun s t h hdone hclear => ?_⟩
  · rw [State.resetOf_status]
    decide
  · rw [eq_finish_of_performCommand_next h]
    exact statusDone_finish ..
  · rcases step_keeps_done_or_resets h hdone with hkept | ⟨e, rest, hs, rfl | ⟨w, rfl⟩⟩
    · exact absurd (hkept.symm.trans hclear) (by decide)
    · exact ⟨rest, .inl hs⟩
    · exact ⟨rest, .inr ⟨w, hs⟩⟩

/-- Settles O20, by the register accesses, and by what a command's result looks at. -/
theorem lengthRegistersStoreAnyValue : Obligations.LengthRegistersStoreAnyValue := by
  intro s v hl
  refine ⟨⟨?_, ?_, ?_, ?_⟩, rfl, rfl, fun t w h => ?_, fun i hover => ?_, fun i hi t u ht hu => ?_⟩
  · exact step_issue_writeReg hl (r := .lenA) (by decide) v
  · exact step_issue_writeReg hl (r := .lenB) (by decide) v
  · exact step_issue_readReg hl .lenA
  · exact step_issue_readReg hl .lenB
  · rw [eq_finish_of_performCommand_next h]
    exact ⟨State.finish_lenA .., State.finish_lenB ..⟩
  · refine ⟨_, exec_eq_finish i s, ?_⟩
    rw [runCommand_over hover]
    exact takeError_capacity_failedWith s
  · calc u = (s.setLenB v).finish (runCommand i (s.setLenB v)) := eq_finish_of_exec_next hu
      _ = (s.finish (runCommand i s)).setLenB v := by rw [runCommand_setLenB hi, finish_setLenB]
      _ = t.setLenB v := by rw [eq_finish_of_exec_next ht]

/-- Settles O21, by the register accesses and `step_keeps_cfg`. -/
theorem capacityRegistersAreConstant : Obligations.CapacityRegistersAreConstant := by
  intro s hl
  refine ⟨?_, ?_, fun v => ?_, fun v => ?_, fun t => step_keeps_cfg⟩
  · exact step_issue_readReg hl .capIn
  · exact step_issue_readReg hl .capOut
  · exact step_issue_writeReg hl (r := .capIn) (by decide) v
  · exact step_issue_writeReg hl (r := .capOut) (by decide) v

end Sys2Proof.Machine
end

section
/-! SUPPORT. A bus access as a step: an access inside the aperture is the block's read or write, an aligned word is accepted, and what
an accepted access does by place. -/

namespace Sys2Proof.Machine

/-- A read inside the aperture is the block's read at that offset (R52, R53). -/
theorem step_issue_read {s : State} (hl : s.cfg.legal = true) {off : Nat} (h : off < 0x80000) (size : Nat) :
    step (s.issue (.read (s.cfg.base + off) size)) = hostRead s off size := by
  simp only [step_issue hl, performEvent, blockOffset_busAddress _ h]

/-- A write inside the aperture is the block's write at that offset (R52, R53). -/
theorem step_issue_write {s : State} (hl : s.cfg.legal = true) {off : Nat} (h : off < 0x80000) (size : Nat) (v : Word) :
    step (s.issue (.write (s.cfg.base + off) size v)) = hostWrite s off size v := by
  simp only [step_issue hl, performEvent, blockOffset_busAddress _ h]

/-- An aligned word is accepted anywhere in the offset space (R54). -/
theorem accepted_alignedWord {off : Nat} (halign : off % 4 = 0) (h : off ≤ 0x7FFFC) : accepted off 4 = true := by
  simp [accepted, halign, h]

/-- An accepted read of octets that have values answers the value (R53, R60). -/
theorem hostRead_of_data {s : State} {off size : Nat} {v : Word} (ha : accepted off size = true)
    (h : readAt s off size = .data v) : hostRead s off size = .next (s.respond (.readData v)) := by
  simp only [hostRead, ha, h, ↓reduceIte]

/-- An accepted write to a place other than CMD is the store, then the completion (R53, R59). -/
theorem hostWrite_of_ne_cmd {s : State} {off size : Nat} (ha : accepted off size = true) (hp : placeOf off ≠ .reg .cmd) (v : Word) :
    hostWrite s off size v = .next ((writeAt s off size v).respond .writeDone) := by
  simp only [hostWrite, ha, if_neg hp, completeWrite, ↓reduceIte]

/-- CAP_OUT is the last register (R23). -/
theorem Reg.offset_le_capOut (r : Reg) : r.offset ≤ 0x020 := by cases r <;> decide

/-- No register and no buffer lies in the reserved ranges of R57. -/
theorem placeOf_eq_reserved {off : Nat} (h : (0x024 ≤ off ∧ off < 0x10000) ∨ 0x50000 ≤ off) : placeOf off = .reserved := by
  rcases placeOf_cases off with ⟨_, ⟨r, _, hr⟩ | hp⟩ | ⟨i, _, _, _⟩ | ⟨i, _, _, _⟩ | ⟨i, _, _, _⟩ | ⟨_, hp⟩
  · have := r.offset_le_capOut
    omega
  · exact hp
  · omega
  · omega
  · omega
  · exact hp

/-- A reserved place reads 0 (R57). -/
theorem readAt_reserved {s : State} {off : Nat} (hp : placeOf off = .reserved) (size : Nat) : readAt s off size = .data 0 := by
  simp only [readAt, hp]

/-- A reserved place ignores a write (R57). -/
theorem writeAt_reserved {s : State} {off : Nat} (hp : placeOf off = .reserved) (size : Nat) (v : Word) :
    writeAt s off size v = s := by
  simp only [writeAt, hp]

end Sys2Proof.Machine
end

section
/-! The statements about the bus port (spec/20_memory.md). -/

namespace Sys2Proof.Machine

/-- Settles O26: the two ranges hold reserved places alone, and an aligned word there is accepted. -/
theorem reservedOffsetsReadZeroIgnoreWrites : Obligations.ReservedOffsetsReadZeroIgnoreWrites := by
  intro s off v hl halign hrange
  have hoff : off < 0x80000 := by omega
  have hacc : accepted off 4 = true := accepted_alignedWord halign (by omega)
  have hp : placeOf off = .reserved := placeOf_eq_reserved (by omega)
  have hcmd : placeOf off ≠ .reg .cmd := by simp [hp]
  constructor
  · rw [step_issue_read hl hoff, hostRead_of_data hacc (readAt_reserved hp 4)]
  · rw [step_issue_write hl hoff, hostWrite_of_ne_cmd hacc hcmd, writeAt_reserved hp]

end Sys2Proof.Machine
end

section
/-! SUPPORT. The two fields of a CMD word, and what the decoder makes of them (spec/30_encoding.md R70 to R73, R77). -/

namespace Sys2Proof

/-- A CMD word is its two fields, RSV above OP (R70). -/
theorem rsvField_append_opField (w : Word) : rsvField w ++ opField w = w :=
  calc rsvField w ++ opField w = w.extractLsb' 0 (28 + 4) := BitVec.extractLsb'_append_extractLsb'_eq_extractLsb' rfl
    _ = w := BitVec.extractLsb'_eq_self

theorem eq_encode_iff {w : Word} {i : Instr} : w = encode i ↔ rsvField w = 0 ∧ opField w = opcode i := by
  constructor
  · rintro rfl
    exact ⟨BitVec.extractLsb'_append_eq_left, BitVec.extractLsb'_append_eq_right⟩
  · rintro ⟨hrsv, hop⟩
    rw [← rsvField_append_opField w, hrsv, hop, encode]

/-- The opcode map inverts `opcode`, by its 16 OP values. -/
theorem opcodeMap_eq_some_iff {op : BitVec 4} {i : Instr} : opcodeMap op = some i ↔ op = opcode i := by
  cases i <;> revert op <;> decide

/-- The decoder answers a command exactly on that command's word (R71, R74). -/
theorem decode_eq_command_iff {w : Word} {i : Instr} : decode w = .command i ↔ w = encode i := by
  rw [eq_encode_iff, ← opcodeMap_eq_some_iff, decode]
  by_cases hrsv : rsvField w = 0
  · cases opcodeMap (opField w) <;> simp [hrsv]
  · simp only [hrsv, ↓reduceIte, false_and, reduceCtorEq]

/-- A word that is no command's word is ILLEGAL (R77). -/
theorem decode_illegal_of_ne_encode {w : Word} (h : ∀ i, w ≠ encode i) : ∃ why, decode w = .illegal why := by
  cases hd : decode w with
  | command i => exact absurd (decode_eq_command_iff.1 hd) (h i)
  | illegal why => exact ⟨why, rfl⟩

/-- The OP values of R71 are 1 to 5. -/
theorem opcode_range (i : Instr) : 1 ≤ (opcode i).toNat ∧ (opcode i).toNat ≤ 5 := by cases i <;> decide

/-- A reserved bit (R72) or an OP value outside the map (R73) keeps a word from being a command's word. -/
theorem ne_encode_of_fields {w : Word} (h : rsvField w ≠ 0 ∨ (opField w).toNat = 0 ∨ 6 ≤ (opField w).toNat) (i : Instr) :
    w ≠ encode i := by
  intro hw
  obtain ⟨hrsv, hop⟩ := eq_encode_iff.1 hw
  have hrange := opcode_range i
  rw [← hop] at hrange
  rcases h with hset | hzero | hbig
  · exact hset hrsv
  · omega
  · omega

end Sys2Proof
end

section
/-! SUPPORT. The host's write to CMD as a step, and the report of a word that is no command. -/

namespace Sys2Proof.Machine

/-- A word write to CMD performs the word, reports its result and completes (R24, R78, R185). -/
theorem step_issue_cmd {s : State} (hl : s.cfg.legal = true) (w : Word) :
    step (s.issue (.write (s.cfg.base + Reg.cmd.offset) 4 w)) = .next ((s.finish (runWord w s)).respond .writeDone) := by
  simp only [step_issue_write hl Reg.cmd.offset_lt_aperture, hostWrite, accepted_regWord, placeOf_regOffset, ↓reduceIte,
    performCommand_eq_finish, completeWrite]

/-- An ILLEGAL word raises ILLEGAL_OP, whatever the lengths are (R77, R164). -/
theorem runWord_illegal {w : Word} {why : Reject} (h : decode w = .illegal why) (s : State) :
    runWord w s = .raised (plainError .illegalOp) := by
  simp only [runWord, h]

/-- The report of an error found in no operand: its code, and 0 in the other three registers (R165). -/
theorem takeError_plainError_failedWith (s : State) (c : ErrCode) :
    FailedWith (s.takeError (plainError c)) (failureStatus c) 0 0 := by
  have hinfo : failureInfo .a 0 = 0 := by decide
  exact ⟨rfl, rfl, rfl, hinfo⟩

end Sys2Proof.Machine
end

section
/-! The statements about the encoding of commands (spec/30_encoding.md). -/

namespace Sys2Proof.Machine

/-- Settles O2: the decoder answers a command exactly on its encoding, and the encodings are the words 1 to 5. -/
theorem exactlyFiveWordsAreCommands : Obligations.ExactlyFiveWordsAreCommands := by
  intro w
  refine ⟨decode_eq_command_iff, decode_eq_command_iff, decode_eq_command_iff, decode_eq_command_iff, decode_eq_command_iff,
    fun ⟨h1, h2, h3, h4, h5⟩ => decode_illegal_of_ne_encode fun i => ?_⟩
  cases i with
  | hexDecode => exact h1
  | b64Encode => exact h2
  | hexToB64 => exact h3
  | xorHex => exact h4
  | hexEncode => exact h5

/-- Settles O5: such a word is no command's word, so its result is ILLEGAL_OP, and `finish` of that changes the report and BUF_OUT
alone. -/
theorem illegalWordIsPerformedAsIllegalOp : Obligations.IllegalWordIsPerformedAsIllegalOp := by
  intro s w hl hw
  obtain ⟨why, hillegal⟩ := decode_illegal_of_ne_encode (ne_encode_of_fields hw)
  have hstep := step_issue_cmd hl w
  rw [runWord_illegal hillegal] at hstep
  refine ⟨_, hstep, ?_, rfl, rfl, rfl, rfl, fun a ha => ?_⟩
  · exact takeError_plainError_failedWith s .illegalOp
  · exact finish_read_outside s (.raised (plainError .illegalOp)) ha fun _ h => nomatch h

end Sys2Proof.Machine
end

section
/-! SUPPORT. The hex decoder (spec/40_hex_decoder.md): digits and their values, the first invalid octet, the assembled pairs, and
`hexDecodeFn` case by case (R100 to R107). -/

namespace Sys2Proof.Machine

/-- A nibble built from a number below 16 is the one with that value. -/
theorem ofNat_eq_nibble_iff {n : Nat} {v : Nibble} (h : n < 16) : BitVec.ofNat 4 n = v ↔ n = v.toNat := by
  rw [← BitVec.toNat_inj, BitVec.toNat_ofNat, Nat.mod_eq_of_lt h]

/-- A digit's value as HexVal gives it and as `digitValue` reads it off are the same. -/
theorem hexVal_eq_digitValue {c : Byte} (h : hexVal c ≠ none) : hexVal c = some (digitValue c) := by
  obtain ⟨v, hv⟩ := Option.ne_none_iff_exists'.1 h
  rw [digitValue, hv, Option.getD_some]

/-- Concatenating the two values is the shift and OR of R105. -/
theorem digitValue_append (hi lo : Byte) : digitValue hi ++ digitValue lo = pairOctet hi lo := by
  rw [BitVec.append_def, BitVec.shiftLeftZeroExtend_eq, BitVec.setWidth'_eq, pairOctet]

/-- Octet `k` of the assembled pairs comes from octets `2k` and `2k+1` (R105). -/
theorem assemblePairs_getElem? {a : List Byte} {k : Nat} (h : 2 * k + 1 < a.length) :
    (assemblePairs a)[k]? = some (pairOctet a[2 * k] a[2 * k + 1]) := by
  induction a using assemblePairs.induct generalizing k with
  | case1 hi lo rest ih =>
    cases k with
    | zero => exact congrArg some (digitValue_append hi lo)
    | succ k => exact ih (by simp only [List.length_cons] at h; omega)
  | case2 b => simp at h
  | case3 => simp at h

/-- No octet is found invalid exactly when every octet is a digit (R104). -/
theorem firstInvalid_eq_none_iff {i : Nat} {a : List Byte} : firstInvalid i a = none ↔ ValidHex a := by
  induction a generalizing i with
  | nil => simp [firstInvalid, ValidHex]
  | cons c a ih =>
    cases hc : hexVal c with
    | none => simp [firstInvalid, ValidHex, hc]
    | some v => simpa [firstInvalid, ValidHex, hc] using ih

/-- The octet found invalid is the one of lowest index that is no digit (R104). -/
theorem firstInvalid_eq_some {a : List Byte} {n : Nat} (hn : n < a.length) (hbad : hexVal a[n] = none)
    (hfirst : ∀ (j : Nat) (hj : j < n), hexVal a[j] ≠ none) (i : Nat) : firstInvalid i a = some (i + n, a[n]) := by
  induction a generalizing n i with
  | nil => exact absurd hn (Nat.not_lt_zero n)
  | cons c a ih =>
    cases n with
    | zero =>
      have hc : hexVal c = none := hbad
      simp [firstInvalid, hc]
    | succ n =>
      have hc : hexVal c = some (digitValue c) := hexVal_eq_digitValue (hfirst 0 (Nat.succ_pos n))
      have htail := ih (Nat.lt_of_succ_lt_succ hn) hbad (fun j hj => hfirst (j + 1) (Nat.succ_lt_succ hj)) (i + 1)
      simp only [firstInvalid, hc, htail, List.getElem_cons_succ, Nat.add_assoc, Nat.add_comm 1]

/-- An odd length is INVALID_LENGTH, before any octet is looked at (R103). -/
theorem hexDecodeFn_odd {a : List Byte} (o : Operand) (h : a.length % 2 = 1) :
    hexDecodeFn a o = .raised ⟨.invalidLength, o, 0, 0⟩ := if_pos h

/-- An even length with an octet that is no digit is INVALID_DIGIT at the lowest such index (R104). -/
theorem hexDecodeFn_invalidDigit {a : List Byte} (o : Operand) (heven : a.length % 2 ≠ 1) {n : Nat} (hn : n < a.length)
    (hbad : hexVal a[n] = none) (hfirst : ∀ (j : Nat) (hj : j < n), hexVal a[j] ≠ none) :
    hexDecodeFn a o = .raised ⟨.invalidDigit, o, n, a[n]⟩ := by
  simp only [hexDecodeFn, if_neg heven, firstInvalid_eq_some hn hbad hfirst, Nat.zero_add]

/-- An even number of digits decodes to the assembled pairs (R105). -/
theorem hexDecodeFn_valid {a : List Byte} (o : Operand) (heven : a.length % 2 ≠ 1) (h : ValidHex a) :
    hexDecodeFn a o = .done (assemblePairs a) := by
  simp only [hexDecodeFn, if_neg heven, firstInvalid_eq_none_iff.2 h]

end Sys2Proof.Machine
end

section
/-! SUPPORT. Operand A as a list and by index, and the two reports of a command in the terms of the statements (R165, R166). -/

namespace Sys2Proof.Machine

@[simp] theorem operandA_getElem {s : State} {i : Nat} (h : i < (operandA s).length) : (operandA s)[i] = octetA s i :=
  operandOctets_getElem s bufABase s.lenA.toNat i h

/-- Operand A is valid hex when each of its octets is. -/
theorem validHex_operandA {s : State} (h : ∀ i < s.lenA.toNat, hexVal (octetA s i) ≠ none) : ValidHex (operandA s) := by
  intro c hc
  obtain ⟨i, hi, rfl⟩ := List.mem_iff_getElem.1 hc
  rw [operandA_getElem]
  exact h i (by rwa [operandA_length] at hi)

/-- The report of an INVALID_DIGIT: its code, the index and the octet with its operand (R165). -/
theorem takeError_invalidDigit_failedWith (s : State) (o : Operand) (i : Nat) (ch : Byte) :
    FailedWith (s.takeError ⟨.invalidDigit, o, i, ch⟩) 0x00000023 (BitVec.ofNat 32 i) (failureInfo o ch) := by
  have hstatus : failureStatus .invalidDigit = 0x00000023 := by decide
  exact ⟨hstatus, rfl, rfl, rfl⟩

/-- An error in operand A leaves ERR_OPND 0, so that ERR_INFO is the octet itself (R33). -/
theorem failureInfo_a (ch : Byte) : failureInfo .a ch = ch.setWidth 32 := BitVec.zero_or

/-- A result that fits BUF_OUT has its length in LEN_OUT, with no wrap (R31, R166). -/
theorem takeSuccess_succeededWith {s : State} {out : List Byte} (hl : s.cfg.legal = true) (hfit : out.length ≤ s.cfg.maxOut) :
    SucceededWith (s.takeSuccess out) out.length := by
  have hmax := maxOut_le_of_legal hl
  refine ⟨rfl, ?_, rfl, rfl⟩
  rw [State.takeSuccess_lenOut, BitVec.toNat_ofNat, Nat.mod_eq_of_lt (by omega)]

/-- After a success the host reads octet `k` of the result at BUF_OUT[k] (R39, R166). -/
theorem resultOctet_takeSuccess {s : State} {out : List Byte} (hl : s.cfg.legal = true) (hfit : out.length ≤ s.cfg.maxOut)
    {k : Nat} (hk : k < out.length) : resultOctet (s.takeSuccess out) k = out[k]? := by
  have hread : hostOctet (s.takeSuccess out) (bufOutBase + k) = outOctet (s.takeSuccess out) k :=
    hostOctet_bufOut hl (Nat.lt_of_lt_of_le hk hfit)
  rw [resultOctet, hread, outOctet, takeSuccess_read_result s hk, List.getElem?_eq_getElem hk]

/-- A command with a result reports its length and shows its octets in BUF_OUT (R166). -/
theorem finish_runCommand_done {i : Instr} {s : State} {out : List Byte} (hl : s.cfg.legal = true)
    (h : runCommand i s = .done out) :
    SucceededWith (s.finish (runCommand i s)) out.length
      ∧ ∀ k < out.length, resultOctet (s.finish (runCommand i s)) k = out[k]? := by
  have hfit := runCommand_done_fits h
  rw [h]
  exact ⟨takeSuccess_succeededWith hl hfit, fun k hk => resultOctet_takeSuccess hl hfit hk⟩

/-- The decoder's INVALID_DIGIT on operand A, by index (R104). -/
theorem hexDecodeFn_operandA_invalidDigit {s : State} (heven : s.lenA.toNat % 2 ≠ 1) {i : Nat} (hi : i < s.lenA.toNat)
    (hbad : hexVal (octetA s i) = none) (hfirst : ∀ j < i, hexVal (octetA s j) ≠ none) :
    hexDecodeFn (operandA s) .a = .raised ⟨.invalidDigit, .a, i, octetA s i⟩ := by
  have hi' : i < (operandA s).length := by rwa [operandA_length]
  rw [← operandA_getElem hi'] at hbad ⊢
  exact hexDecodeFn_invalidDigit .a (by rwa [operandA_length]) hi' hbad
    fun j hj => by rw [operandA_getElem]; exact hfirst j hj

/-- The decoder's result on operand A when each of its octets is a digit (R105). -/
theorem hexDecodeFn_operandA_valid {s : State} (heven : s.lenA.toNat % 2 ≠ 1)
    (hvalid : ∀ i < s.lenA.toNat, hexVal (octetA s i) ≠ none) :
    hexDecodeFn (operandA s) .a = .done (assemblePairs (operandA s)) :=
  hexDecodeFn_valid .a (by rwa [operandA_length]) (validHex_operandA hvalid)

/-- Octet `k` of the pairs of operand A, by index (R105). -/
theorem assemblePairs_operandA_getElem? {s : State} {k : Nat} (hk : k < s.lenA.toNat / 2) :
    (assemblePairs (operandA s))[k]? = some (decodedA s k) := by
  have hpair : 2 * k + 1 < (operandA s).length := by rw [operandA_length]; omega
  rw [assemblePairs_getElem? hpair, operandA_getElem, operandA_getElem, decodedA]

end Sys2Proof.Machine
end

section
/-! The statements about the hex decoder (spec/40_hex_decoder.md). -/

namespace Sys2Proof.Machine

/-- Settles O6: HEX_DECODE ends in `finish` of `hexDecodeFn` of operand A, whose cases are those of the rule. -/
theorem hexDecodeCompletes : Obligations.HexDecodeCompletes := by
  intro s hl
  refine ⟨_, exec_eq_finish .hexDecode s, ?_⟩
  split
  case isTrue hover =>
    rw [runCommand_over (.inl hover)]
    exact takeError_capacity_failedWith s
  case isFalse hover =>
    have hrun : runCommand .hexDecode s = hexDecodeFn (operandA s) .a :=
      withOperandA_fits (fun a => hexDecodeFn a .a) (Nat.not_lt.1 hover)
    split
    case isTrue hodd =>
      rw [hrun, hexDecodeFn_odd .a (by rwa [operandA_length])]
      exact takeError_plainError_failedWith s .invalidLength
    case isFalse heven =>
      refine ⟨fun i hi hbad hfirst => ?_, fun hvalid => ?_⟩
      · rw [hrun, hexDecodeFn_operandA_invalidDigit heven hi hbad hfirst, ← failureInfo_a]
        exact takeError_invalidDigit_failedWith s .a i (octetA s i)
      · obtain ⟨hreport, hoctets⟩ := finish_runCommand_done hl (hrun.trans (hexDecodeFn_operandA_valid heven hvalid))
        rw [assemblePairs_length, operandA_length] at hreport hoctets
        refine ⟨hreport, fun k hk => ⟨digitValue (octetA s (2 * k)), digitValue (octetA s (2 * k + 1)), ?_, ?_, ?_⟩⟩
        · exact hexVal_eq_digitValue (hvalid (2 * k) (by omega))
        · exact hexVal_eq_digitValue (hvalid (2 * k + 1) (by omega))
        · exact (hoctets k hk).trans (assemblePairs_operandA_getElem? hk)

/-- Settles O44: each of HexVal's three ranges is the range of one form of the digit, and outside them there is no value. -/
theorem hexDigitsAndTheirValues : Obligations.HexDigitsAndTheirValues := by
  intro c v
  have hv := v.isLt
  simp only [hexVal]
  split_ifs with hdecimal hupper hlower
  · rw [Option.some.injEq, ofNat_eq_nibble_iff (by omega)]
    omega
  · rw [Option.some.injEq, ofNat_eq_nibble_iff (by omega)]
    omega
  · rw [Option.some.injEq, ofNat_eq_nibble_iff (by omega)]
    omega
  · refine iff_of_false nofun ?_
    omega

end Sys2Proof.Machine
end

section
/-! SUPPORT. The Base64 encoder (spec/41_base64_encoder.md): the alphabet's octets (R120), the encoding character by character (R121
to R125), and the pipeline HEX_TO_B64 by what its decoder answers (R130). -/

namespace Sys2Proof.Machine

/-- The alphabet by its four ranges, as numbers: no octet wraps (R120). -/
theorem b64Char_toNat (v : Sextet) :
    (b64Char v).toNat =
      if v.toNat ≤ 25 then 0x41 + v.toNat
      else if v.toNat ≤ 51 then 0x61 + (v.toNat - 26)
      else if v.toNat ≤ 61 then 0x30 + (v.toNat - 52)
      else if v.toNat = 62 then 0x2B
      else 0x2F := by
  simp only [b64Char]
  split_ifs
  · exact Nat.mod_eq_of_lt (by omega)
  · exact Nat.mod_eq_of_lt (by omega)
  · exact Nat.mod_eq_of_lt (by omega)
  · rfl
  · rfl

/-- The padding octet is not in the alphabet (R120). -/
theorem b64Char_ne_padChar (v : Sextet) : b64Char v ≠ padChar := by
  intro h
  have hv := b64Char_toNat v
  have hpad : padChar.toNat = 0x3D := rfl
  rw [h, hpad] at hv
  split_ifs at hv <;> omega

/-- Past the first group, the encoding is that of the octets after it (R121). -/
theorem b64CharAt_next_group (f : Nat → Byte) (n k : Nat) :
    b64CharAt f (n + 3) (k + 4) = b64CharAt (fun i => f (i + 3)) n k := by
  have hgroup : (k + 4) / 4 = k / 4 + 1 := by omega
  have hplace : (k + 4) % 4 = k % 4 := by omega
  have hoctet : 3 * (k / 4 + 1) = 3 * (k / 4) + 3 := by omega
  have hsize : n + 3 - (3 * (k / 4) + 3) = n - 3 * (k / 4) := by omega
  simp only [b64CharAt, hgroup, hplace, hoctet, hsize, Nat.add_right_comm _ 3]

/-- Character `k` of the encoding of `a`, by index, for `f` the octets of `a` (R121 to R125): the characters of the first
group compute, and the rest is an encoding of its own. -/
theorem b64EncodeFn_getElem? {a : List Byte} {f : Nat → Byte} (hf : ∀ i < a.length, a[i]? = some (f i)) {k : Nat}
    (hk : k < 4 * ((a.length + 2) / 3)) : (b64EncodeFn a)[k]? = some (b64CharAt f a.length k) := by
  induction a using b64EncodeFn.induct generalizing f k with
  | case1 => exact absurd hk (Nat.not_lt_zero k)
  | case2 b0 =>
    obtain rfl : b0 = f 0 := Option.some.inj (hf 0 Nat.one_pos)
    have hk : k < 4 := by simpa using hk
    interval_cases k <;> rfl
  | case3 b0 b1 =>
    obtain rfl : b0 = f 0 := Option.some.inj (hf 0 Nat.two_pos)
    obtain rfl : b1 = f 1 := Option.some.inj (hf 1 Nat.one_lt_two)
    have hk : k < 4 := by simpa using hk
    interval_cases k <;> rfl
  | case4 b0 b1 b2 rest ih =>
    have hlen : (b0 :: b1 :: b2 :: rest).length = rest.length + 3 := rfl
    rw [hlen] at hf hk ⊢
    by_cases hfirst : k < 4
    · obtain rfl : b0 = f 0 := Option.some.inj (hf 0 (by omega))
      obtain rfl : b1 = f 1 := Option.some.inj (hf 1 (by omega))
      obtain rfl : b2 = f 2 := Option.some.inj (hf 2 (by omega))
      interval_cases k <;> rfl
    · obtain ⟨k, rfl⟩ := Nat.exists_eq_add_of_le' (Nat.not_lt.1 hfirst)
      rw [b64CharAt_next_group]
      exact ih (fun i hi => hf (i + 3) (by omega)) (by omega)

/-- An error of the decoder is the pipeline's (R130, R131). -/
theorem hexToB64Fn_of_raised {a : List Byte} {e : CmdError} (h : hexDecodeFn a .a = .raised e) : hexToB64Fn a = .raised e := by
  simp only [hexToB64Fn, h]

/-- The decoded octets go to the encoder, which raises nothing (R130, R131). -/
theorem hexToB64Fn_of_done {a mid : List Byte} (h : hexDecodeFn a .a = .done mid) :
    hexToB64Fn a = .done (b64EncodeFn mid) := by
  simp only [hexToB64Fn, h]

/-- A command whose result is the encoding of the octets `f 0`, `f 1`, ... of `a` reports `4*ceil(len/3)` and shows its characters in
BUF_OUT (R125, R166). -/
theorem finish_runCommand_b64 {i : Instr} {s : State} {a : List Byte} {f : Nat → Byte} (hl : s.cfg.legal = true)
    (h : runCommand i s = .done (b64EncodeFn a)) (hf : ∀ i < a.length, a[i]? = some (f i)) :
    SucceededWith (s.finish (runCommand i s)) (4 * ((a.length + 2) / 3))
      ∧ ∀ k < 4 * ((a.length + 2) / 3), resultOctet (s.finish (runCommand i s)) k = some (b64CharAt f a.length k) := by
  obtain ⟨hreport, hoctets⟩ := finish_runCommand_done hl h
  rw [b64EncodeFn_length] at hreport hoctets
  exact ⟨hreport, fun k hk => (hoctets k hk).trans (b64EncodeFn_getElem? hf hk)⟩

/-- Octet `i` of operand A, by index (R40). -/
theorem operandA_getElem? {s : State} {i : Nat} (h : i < (operandA s).length) : (operandA s)[i]? = some (octetA s i) := by
  rw [List.getElem?_eq_getElem h, operandA_getElem]

end Sys2Proof.Machine
end

section
/-! The statements about the Base64 encoder (spec/41_base64_encoder.md). -/

namespace Sys2Proof.Machine

/-- Settles O7: within capacity the command's result is the encoding of operand A, whatever its octets are. -/
theorem b64EncodeCompletes : Obligations.B64EncodeCompletes := by
  intro s hl
  refine ⟨_, exec_eq_finish .b64Encode s, ?_⟩
  split
  case isTrue hover =>
    rw [runCommand_over (.inl hover)]
    exact takeError_capacity_failedWith s
  case isFalse hover =>
    have hrun : runCommand .b64Encode s = .done (b64EncodeFn (operandA s)) :=
      withOperandA_fits (fun a => .done (b64EncodeFn a)) (Nat.not_lt.1 hover)
    have hresult := finish_runCommand_b64 hl hrun fun _ => operandA_getElem?
    rwa [operandA_length] at hresult

/-- Settles O8: the cases are those of the decoder on operand A, and a decode that succeeds is encoded. -/
theorem hexToB64Completes : Obligations.HexToB64Completes := by
  intro s hl
  refine ⟨_, exec_eq_finish .hexToB64 s, ?_⟩
  split
  case isTrue hover =>
    rw [runCommand_over (.inl hover)]
    exact takeError_capacity_failedWith s
  case isFalse hover =>
    have hrun : runCommand .hexToB64 s = hexToB64Fn (operandA s) := withOperandA_fits hexToB64Fn (Nat.not_lt.1 hover)
    split
    case isTrue hodd =>
      rw [hrun, hexToB64Fn_of_raised (hexDecodeFn_odd .a (by rwa [operandA_length]))]
      exact takeError_plainError_failedWith s .invalidLength
    case isFalse heven =>
      refine ⟨fun i hi hbad hfirst => ?_, fun hvalid => ?_⟩
      · rw [hrun, hexToB64Fn_of_raised (hexDecodeFn_operandA_invalidDigit heven hi hbad hfirst), ← failureInfo_a]
        exact takeError_invalidDigit_failedWith s .a i (octetA s i)
      · have hdone := hexToB64Fn_of_done (hexDecodeFn_operandA_valid heven hvalid)
        have hlen : (assemblePairs (operandA s)).length = s.lenA.toNat / 2 := by rw [assemblePairs_length, operandA_length]
        have hresult := finish_runCommand_b64 hl (hrun.trans hdone)
          fun k hk => assemblePairs_operandA_getElem? (hlen ▸ hk)
        have hgroups : (s.lenA.toNat / 2 + 2) / 3 = (s.lenA.toNat + 5) / 6 := by omega
        rwa [hlen, hgroups] at hresult

/-- Settles O45: each of B64Char's ranges is one stretch of the concatenation. -/
theorem base64AlphabetInOrder : Obligations.Base64AlphabetInOrder := by
  refine ⟨fun v => ⟨?_, b64Char_ne_padChar v⟩, fun b => rfl⟩
  have hv := v.isLt
  rw [b64Char_toNat]
  split_ifs with hupper hlower hdigit hplus
  · have hin : v.toNat < 26 := by omega
    simp [List.getElem?_append, hin]
  · have hpastUpper : ¬ v.toNat < 26 := by omega
    have hin : v.toNat - 26 < 26 := by omega
    simp [List.getElem?_append, hpastUpper, hin]
  · have hpastUpper : ¬ v.toNat < 26 := by omega
    have hpastLower : ¬ v.toNat - 26 < 26 := by omega
    have hplace : v.toNat - 26 - 26 = v.toNat - 52 := by omega
    have hin : v.toNat - 52 < 10 := by omega
    simp [List.getElem?_append, hpastUpper, hpastLower, hplace, hin]
  · rw [hplus]
    rfl
  · have hslash : v.toNat = 63 := by omega
    rw [hslash]
    rfl

end Sys2Proof.Machine
end

section
/-! SUPPORT. The hex encoder and the fixed XOR (spec/42_fixed_xor.md): the lowercase digits (R140), and the transformations on the
octets `f 0`, ..., `f (n - 1)`, which is the form of both operands and of every result, so that one lemma serves A and B. -/

namespace Sys2Proof.Machine

/-- The two ranges of HexChr, as numbers: no octet wraps (R140). -/
theorem hexChr_toNat (v : Nibble) :
    (hexChr v).toNat = if v.toNat ≤ 9 then 0x30 + v.toNat else 0x61 + (v.toNat - 10) := by
  have hv := v.isLt
  rw [hexChr]
  split_ifs
  · exact Nat.mod_eq_of_lt (by omega)
  · exact Nat.mod_eq_of_lt (by omega)

/-- HexVal reads back the value HexChr wrote (R100, R140). -/
theorem hexVal_hexChr (v : Nibble) : hexVal (hexChr v) = some v := by
  have hv := v.isLt
  simp only [hexVal, hexChr_toNat]
  by_cases hdecimal : v.toNat ≤ 9
  · rw [if_pos hdecimal, if_pos (by omega), Option.some.injEq, ofNat_eq_nibble_iff (by omega)]
    omega
  · rw [if_neg hdecimal, if_neg (by omega), if_neg (by omega), if_pos (by omega), Option.some.injEq,
      ofNat_eq_nibble_iff (by omega)]
    omega

/-- No output of HexChr is an uppercase letter (R140). -/
theorem hexChr_not_uppercase (v : Nibble) : (hexChr v).toNat < 0x41 ∨ 0x5A < (hexChr v).toNat := by
  rw [hexChr_toNat]
  split_ifs <;> omega

theorem operandA_eq_map_range (s : State) : operandA s = (List.range s.lenA.toNat).map (octetA s) := rfl

theorem operandB_eq_map_range (s : State) : operandB s = (List.range s.lenB.toNat).map (octetB s) := rfl

/-- The decoder's INVALID_DIGIT, by index (R104). -/
theorem hexDecodeFn_map_range_invalidDigit {n : Nat} {f : Nat → Byte} (o : Operand) (heven : n % 2 ≠ 1) {i : Nat} (hi : i < n)
    (hbad : hexVal (f i) = none) (hfirst : ∀ j < i, hexVal (f j) ≠ none) :
    hexDecodeFn ((List.range n).map f) o = .raised ⟨.invalidDigit, o, i, f i⟩ := by
  have hraised := hexDecodeFn_invalidDigit (a := (List.range n).map f) (n := i) o (by simpa using heven) (by simpa using hi)
    (by simpa using hbad) (by simpa using hfirst)
  simpa using hraised

/-- The assembled pairs, by index (R105). -/
theorem assemblePairs_map_range (n : Nat) (f : Nat → Byte) :
    assemblePairs ((List.range n).map f) = (List.range (n / 2)).map (fun k => pairOctet (f (2 * k)) (f (2 * k + 1))) := by
  apply List.ext_getElem
  · simp
  · intro k hk _
    have hpair : 2 * k + 1 < ((List.range n).map f).length := by
      simp only [assemblePairs_length, List.length_map, List.length_range] at hk ⊢
      omega
    simpa [List.getElem?_eq_getElem hk] using assemblePairs_getElem? hpair

/-- An even number of digits decodes to the pairs, by index (R105). -/
theorem hexDecodeFn_map_range_valid {n : Nat} {f : Nat → Byte} (o : Operand) (heven : n % 2 ≠ 1)
    (hvalid : ∀ i < n, hexVal (f i) ≠ none) :
    hexDecodeFn ((List.range n).map f) o =
      .done ((List.range (n / 2)).map (fun k => pairOctet (f (2 * k)) (f (2 * k + 1)))) := by
  rw [← assemblePairs_map_range]
  exact hexDecodeFn_valid o (by simpa using heven) (by simpa [ValidHex] using hvalid)

/-- Past the first octet, the encoding is that of the octets after it (R141). -/
theorem hexCharAt_next_octet (f : Nat → Byte) : hexCharAt (fun i => f (i + 1)) = fun k => hexCharAt f (k + 2) := by
  funext k
  simp only [hexCharAt, Nat.add_mod_right, Nat.add_div_right k Nat.two_pos]

/-- The hex encoding, by index: character `k` comes from octet `k / 2` (R141). -/
theorem hexEncodeFn_map_range (n : Nat) (f : Nat → Byte) :
    hexEncodeFn ((List.range n).map f) = (List.range (2 * n)).map (hexCharAt f) := by
  induction n generalizing f with
  | zero => rfl
  | succ n ih =>
    have hrest := ih (fun i => f (i + 1))
    rw [hexCharAt_next_octet] at hrest
    simp only [Nat.mul_succ, List.range_succ_eq_map, List.map_cons, List.map_map, hexEncodeFn]
    exact congrArg (hexChr ((f 0).extractLsb' 4 4) :: hexChr ((f 0).extractLsb' 0 4) :: ·) hrest

/-- The XOR of two sequences of equal length, by index (R142). -/
theorem xorFn_map_range (n : Nat) (f g : Nat → Byte) :
    xorFn ((List.range n).map f) ((List.range n).map g) = (List.range n).map (fun k => f k ^^^ g k) := by
  rw [xorFn, List.zipWith_map, List.zipWith_self]

/-- Unequal lengths are LENGTH_MISMATCH, before any decoding (R143). -/
theorem xorHexFn_of_length_ne {a b : List Byte} (h : a.length ≠ b.length) :
    xorHexFn a b = .raised (plainError .lengthMismatch) := if_neg h

/-- An error of operand A is reported, whatever operand B holds (R144). -/
theorem xorHexFn_of_raised_a {a b : List Byte} {e : CmdError} (hlen : a.length = b.length)
    (ha : hexDecodeFn a .a = .raised e) : xorHexFn a b = .raised e := by
  simp only [xorHexFn, if_pos hlen, ha]

/-- An error of operand B is reported when operand A decodes (R144). -/
theorem xorHexFn_of_raised_b {a b x : List Byte} {e : CmdError} (hlen : a.length = b.length)
    (ha : hexDecodeFn a .a = .done x) (hb : hexDecodeFn b .b = .raised e) : xorHexFn a b = .raised e := by
  simp only [xorHexFn, if_pos hlen, ha, hb]

/-- When both operands decode, the XOR of their octets is encoded (R145). -/
theorem xorHexFn_of_done {a b x y : List Byte} (hlen : a.length = b.length) (ha : hexDecodeFn a .a = .done x)
    (hb : hexDecodeFn b .b = .done y) : xorHexFn a b = .done (hexEncodeFn (xorFn x y)) := by
  simp only [xorHexFn, if_pos hlen, ha, hb]

/-- The result of XOR_HEX on two operands of `n` digits, by index (R145): `n` octets again, since `n` is even. -/
theorem xorHexFn_map_range_valid {n : Nat} {f g : Nat → Byte} (heven : n % 2 ≠ 1) (hf : ∀ i < n, hexVal (f i) ≠ none)
    (hg : ∀ i < n, hexVal (g i) ≠ none) :
    xorHexFn ((List.range n).map f) ((List.range n).map g) =
      .done ((List.range n).map (hexCharAt fun k =>
        pairOctet (f (2 * k)) (f (2 * k + 1)) ^^^ pairOctet (g (2 * k)) (g (2 * k + 1)))) := by
  have htwice : 2 * (n / 2) = n := by omega
  rw [xorHexFn_of_done (by simp) (hexDecodeFn_map_range_valid .a heven hf) (hexDecodeFn_map_range_valid .b heven hg),
    xorFn_map_range, hexEncodeFn_map_range, htwice]

/-- An error in operand B sets ERR_OPND, bit 8 of ERR_INFO (R33). -/
theorem failureInfo_b (ch : Byte) : failureInfo .b ch = 0x00000100 ||| ch.setWidth 32 := rfl

/-- A command whose result is the octets `f 0`, ..., `f (n - 1)` reports `n` and shows `f k` at BUF_OUT[k] (R166). -/
theorem finish_runCommand_map_range {i : Instr} {s : State} {n : Nat} {f : Nat → Byte} (hl : s.cfg.legal = true)
    (h : runCommand i s = .done ((List.range n).map f)) :
    SucceededWith (s.finish (runCommand i s)) n
      ∧ ∀ k < n, resultOctet (s.finish (runCommand i s)) k = some (f k) := by
  obtain ⟨hreport, hoctets⟩ := finish_runCommand_done hl h
  rw [List.length_map, List.length_range] at hreport hoctets
  refine ⟨hreport, fun k hk => (hoctets k hk).trans ?_⟩
  rw [List.getElem?_map, List.getElem?_range hk, Option.map_some]

end Sys2Proof.Machine
end

section
/-! The statements about the fixed XOR and the hex-encode path (spec/42_fixed_xor.md). -/

namespace Sys2Proof.Machine

/-- Settles O9: XOR_HEX ends in `finish` of `xorHexFn` of the operands, whose cases are those of the rule. -/
theorem xorHexCompletes : Obligations.XorHexCompletes := by
  intro s hl
  refine ⟨_, exec_eq_finish .xorHex s, ?_⟩
  split
  case isTrue hover =>
    rw [runCommand, withOperandsAB_over xorHexFn hover]
    exact takeError_capacity_failedWith s
  case isFalse hover =>
    obtain ⟨hfitA, hfitB⟩ := not_or.1 hover
    have hrun : runCommand .xorHex s = xorHexFn (operandA s) (operandB s) :=
      withOperandsAB_fits xorHexFn (Nat.not_lt.1 hfitA) (Nat.not_lt.1 hfitB)
    split
    case isTrue hne =>
      have hlen : (operandA s).length ≠ (operandB s).length := by
        rwa [operandA_length, operandB_length, ne_eq, BitVec.toNat_inj]
      rw [hrun, xorHexFn_of_length_ne hlen]
      exact takeError_plainError_failedWith s .lengthMismatch
    case isFalse heq =>
      have hn : s.lenB.toNat = s.lenA.toNat := by rw [not_not.1 heq]
      have hlen : (operandA s).length = (operandB s).length := by rw [operandA_length, operandB_length, hn]
      have hB : operandB s = (List.range s.lenA.toNat).map (octetB s) := by rw [operandB_eq_map_range, hn]
      rw [hn]
      split
      case isTrue hodd =>
        rw [hrun, xorHexFn_of_raised_a hlen (hexDecodeFn_odd .a (by rwa [operandA_length]))]
        exact takeError_plainError_failedWith s .invalidLength
      case isFalse heven =>
        refine ⟨fun i hi hbad hfirst => ?_, fun hvalidA i hi hbad hfirst => ?_, fun hvalidA hvalidB => ?_⟩
        · rw [hrun, xorHexFn_of_raised_a hlen (hexDecodeFn_operandA_invalidDigit heven hi hbad hfirst), ← failureInfo_a]
          exact takeError_invalidDigit_failedWith s .a i (octetA s i)
        · have hraised : hexDecodeFn (operandB s) .b = .raised ⟨.invalidDigit, .b, i, octetB s i⟩ :=
            hB ▸ hexDecodeFn_map_range_invalidDigit .b heven hi hbad hfirst
          rw [hrun, xorHexFn_of_raised_b hlen (hexDecodeFn_operandA_valid heven hvalidA) hraised, ← failureInfo_b]
          exact takeError_invalidDigit_failedWith s .b i (octetB s i)
        · rw [operandA_eq_map_range, hB] at hrun
          exact finish_runCommand_map_range hl (hrun.trans (xorHexFn_map_range_valid heven hvalidA hvalidB))

/-- Settles O10: within capacity the command's result is the hex encoding of operand A, whatever its octets are. -/
theorem hexEncodeCompletes : Obligations.HexEncodeCompletes := by
  intro s hl
  refine ⟨_, exec_eq_finish .hexEncode s, ?_⟩
  split
  case isTrue hover =>
    rw [runCommand_over (.inl hover)]
    exact takeError_capacity_failedWith s
  case isFalse hover =>
    have hrun : runCommand .hexEncode s = .done (hexEncodeFn (operandA s)) :=
      withOperandA_fits (fun a => .done (hexEncodeFn a)) (Nat.not_lt.1 hover)
    rw [operandA_eq_map_range, hexEncodeFn_map_range] at hrun
    exact finish_runCommand_map_range hl hrun

/-- Settles O46: HexChr's two ranges are those of the lowercase digits, and HexVal inverts it. -/
theorem hexChrIsTheLowercaseDigit : Obligations.HexChrIsTheLowercaseDigit :=
  fun v => ⟨hexChr_toNat v, hexVal_hexChr v, hexChr_not_uppercase v⟩

end Sys2Proof.Machine
end

section
/-! SUPPORT. The result of a command by the first check that fails, one lemma for each check of R167: each takes the checks before it
as passed, in the words of the statement, and holds for every command that makes its check. -/

namespace Sys2Proof.Machine

/-- The command of a CMD word gives the word's result (R78). -/
theorem runWord_command {w : Word} {i : Instr} (h : decode w = .command i) (s : State) : runWord w s = runCommand i s := by
  simp only [runWord, h]

/-- When no octet is found to be no digit, every octet is a digit. -/
theorem validHex_of_not_any {a : List Byte} (h : ¬ a.any (fun c => hexVal c == none) = true) : ValidHex a := by
  simpa [ValidHex] using h

/-- When some octet is found to be no digit, there is one of lowest index. -/
theorem exists_lowest_invalid_of_any {n : Nat} {f : Nat → Byte}
    (h : ((List.range n).map f).any (fun c => hexVal c == none) = true) :
    ∃ k < n, hexVal (f k) = none ∧ ∀ j < k, hexVal (f j) ≠ none := by
  have hex : ∃ k, k < n ∧ hexVal (f k) = none := by simpa using h
  obtain ⟨hk, hbad⟩ := Nat.find_spec hex
  exact ⟨Nat.find hex, hk, hbad, fun j hj hnone => Nat.find_min hex hj ⟨hj.trans hk, hnone⟩⟩

/-- The commands that decode an operand from hex, and so make the checks INVALID_LENGTH and INVALID_DIGIT (R108, R131, R146). -/
abbrev UsesHex (i : Instr) : Prop := i = .hexDecode ∨ i = .hexToB64 ∨ i = .xorHex

theorem lenA_eq_lenB_of_xorHex {i : Instr} {s : State} (hlen : ¬ (i = .xorHex ∧ s.lenA ≠ s.lenB)) (hxor : i = .xorHex) :
    s.lenA = s.lenB := by_contra fun h => hlen ⟨hxor, h⟩

/-- Past the checks of operand A, a command that decodes it gets the assembled pairs (R105). -/
theorem hexDecodeFn_operandA_done {i : Instr} {s : State} (heven : ¬ (UsesHex i ∧ s.lenA.toNat % 2 = 1))
    (hvalidA : ¬ (UsesHex i ∧ (operandA s).any (fun c => hexVal c == none) = true)) (hhex : UsesHex i) :
    hexDecodeFn (operandA s) .a = .done (assemblePairs (operandA s)) := by
  have hevenA : (operandA s).length % 2 ≠ 1 := fun hodd => heven ⟨hhex, operandA_length s ▸ hodd⟩
  exact hexDecodeFn_valid .a hevenA (validHex_of_not_any fun hany => hvalidA ⟨hhex, hany⟩)

section
variable {i : Instr} {s : State} (hfit : ¬ (s.cfg.maxIn < s.lenA.toNat ∨ (i = .xorHex ∧ s.cfg.maxIn < s.lenB.toNat)))
include hfit

/-- Within capacity XOR_HEX runs its transformation on its operands (R146). -/
theorem runCommand_xorHex_fits (hi : i = .xorHex) : runCommand i s = xorHexFn (operandA s) (operandB s) := by
  subst hi
  obtain ⟨hfitA, hfitB⟩ := not_or.1 hfit
  exact withOperandsAB_fits xorHexFn (Nat.not_lt.1 hfitA) (Nat.not_lt.1 fun hb => hfitB ⟨rfl, hb⟩)

/-- Unequal lengths are XOR_HEX's LENGTH_MISMATCH. -/
theorem runCommand_lengthMismatch (h : i = .xorHex ∧ s.lenA ≠ s.lenB) :
    runCommand i s = .raised (plainError .lengthMismatch) := by
  obtain ⟨hxor, hne⟩ := h
  rw [runCommand_xorHex_fits hfit hxor, xorHexFn_of_length_ne]
  rwa [operandA_length, operandB_length, ne_eq, BitVec.toNat_inj]

variable (hlen : ¬ (i = .xorHex ∧ s.lenA ≠ s.lenB))
include hlen

/-- An error of the decoder on operand A is the error of every command that decodes it (R108, R131, R146). -/
theorem runCommand_of_raised_a (hhex : UsesHex i) {e : CmdError} (h : hexDecodeFn (operandA s) .a = .raised e) :
    runCommand i s = .raised e := by
  have hfitA := Nat.not_lt.1 (not_or.1 hfit).1
  rcases hhex with rfl | rfl | rfl
  · exact (withOperandA_fits (fun a => hexDecodeFn a .a) hfitA).trans h
  · exact (withOperandA_fits hexToB64Fn hfitA).trans (hexToB64Fn_of_raised h)
  · rw [runCommand_xorHex_fits hfit rfl, xorHexFn_of_raised_a (by simp [lenA_eq_lenB_of_xorHex hlen]) h]

/-- An odd length is INVALID_LENGTH. -/
theorem runCommand_invalidLength (h : UsesHex i ∧ s.lenA.toNat % 2 = 1) :
    runCommand i s = .raised (plainError .invalidLength) :=
  runCommand_of_raised_a hfit hlen h.1 (hexDecodeFn_odd .a (by rw [operandA_length]; exact h.2))

variable (heven : ¬ (UsesHex i ∧ s.lenA.toNat % 2 = 1))
include heven

/-- An octet of operand A that is no digit is INVALID_DIGIT at the lowest such index. -/
theorem runCommand_invalidDigit_a (h : UsesHex i ∧ (operandA s).any (fun c => hexVal c == none) = true) :
    ∃ k < s.lenA.toNat, hexVal (octetA s k) = none ∧ (∀ j < k, hexVal (octetA s j) ≠ none)
      ∧ runCommand i s = .raised ⟨.invalidDigit, .a, k, octetA s k⟩ := by
  obtain ⟨hhex, hany⟩ := h
  obtain ⟨k, hk, hbad, hfirst⟩ := exists_lowest_invalid_of_any (f := octetA s) hany
  exact ⟨k, hk, hbad, hfirst, runCommand_of_raised_a hfit hlen hhex
    (hexDecodeFn_operandA_invalidDigit (fun hodd => heven ⟨hhex, hodd⟩) hk hbad hfirst)⟩

variable (hvalidA : ¬ (UsesHex i ∧ (operandA s).any (fun c => hexVal c == none) = true))
include hvalidA

/-- An octet of operand B that is no digit is XOR_HEX's INVALID_DIGIT at the lowest such index. -/
theorem runCommand_invalidDigit_b (h : i = .xorHex ∧ (operandB s).any (fun c => hexVal c == none) = true) :
    ∃ k < s.lenB.toNat, hexVal (octetB s k) = none ∧ (∀ j < k, hexVal (octetB s j) ≠ none)
      ∧ runCommand i s = .raised ⟨.invalidDigit, .b, k, octetB s k⟩ := by
  obtain ⟨hxor, hany⟩ := h
  have hhex : UsesHex i := .inr (.inr hxor)
  have heq := lenA_eq_lenB_of_xorHex hlen hxor
  obtain ⟨k, hk, hbad, hfirst⟩ := exists_lowest_invalid_of_any (f := octetB s) hany
  have hraised : hexDecodeFn (operandB s) .b = .raised ⟨.invalidDigit, .b, k, octetB s k⟩ :=
    hexDecodeFn_map_range_invalidDigit .b (fun hodd => heven ⟨hhex, heq ▸ hodd⟩) hk hbad hfirst
  refine ⟨k, hk, hbad, hfirst, ?_⟩
  rw [runCommand_xorHex_fits hfit hxor,
    xorHexFn_of_raised_b (by simp [heq]) (hexDecodeFn_operandA_done heven hvalidA hhex) hraised]

/-- When no check fails the command has a result. -/
theorem exists_runCommand_done (hvalidB : ¬ (i = .xorHex ∧ (operandB s).any (fun c => hexVal c == none) = true)) :
    ∃ out, runCommand i s = .done out := by
  have hfitA := Nat.not_lt.1 (not_or.1 hfit).1
  have hdoneA := hexDecodeFn_operandA_done heven hvalidA
  cases i with
  | hexDecode => exact ⟨_, (withOperandA_fits (fun a => hexDecodeFn a .a) hfitA).trans (hdoneA (.inl rfl))⟩
  | b64Encode => exact ⟨_, withOperandA_fits (fun a => .done (b64EncodeFn a)) hfitA⟩
  | hexToB64 => exact ⟨_, (withOperandA_fits hexToB64Fn hfitA).trans (hexToB64Fn_of_done (hdoneA (.inr (.inl rfl))))⟩
  | xorHex =>
    have hhex : UsesHex .xorHex := .inr (.inr rfl)
    have hsame : (operandA s).length = (operandB s).length := by simp [lenA_eq_lenB_of_xorHex hlen]
    have hevenB : (operandB s).length % 2 ≠ 1 := fun hodd => heven ⟨hhex, by rwa [← hsame, operandA_length] at hodd⟩
    have hdoneB := hexDecodeFn_valid .b hevenB (validHex_of_not_any fun hany => hvalidB ⟨rfl, hany⟩)
    exact ⟨_, (runCommand_xorHex_fits hfit rfl).trans (xorHexFn_of_done hsame (hdoneA hhex) hdoneB)⟩
  | hexEncode => exact ⟨_, withOperandA_fits (fun a => .done (hexEncodeFn a)) hfitA⟩

end

end Sys2Proof.Machine
end

section
/-! The statement about the order of the checks (spec/60_exceptions.md). -/

namespace Sys2Proof.Machine

/-- Settles O11: every CMD word ends in `finish` of its result, which R167's chain of checks gives link by link. -/
theorem firstFailedCheckIsReported : Obligations.FirstFailedCheckIsReported := by
  intro s w hl
  refine ⟨_, performCommand_eq_finish w s, ?_⟩
  cases hdecode : decode w with
  | illegal why =>
    rw [runWord_illegal hdecode]
    exact takeError_plainError_failedWith s .illegalOp
  | command i =>
    rw [runWord_command hdecode]
    dsimp only
    split_ifs with hcapacity hlengths hparity hdigitsA hdigitsB
    · rw [runCommand_over hcapacity]
      exact takeError_capacity_failedWith s
    · rw [runCommand_lengthMismatch hcapacity hlengths]
      exact takeError_plainError_failedWith s .lengthMismatch
    · rw [runCommand_invalidLength hcapacity hlengths hparity]
      exact takeError_plainError_failedWith s .invalidLength
    · obtain ⟨k, hk, hbad, hfirst, hrun⟩ := runCommand_invalidDigit_a hcapacity hlengths hparity hdigitsA
      refine ⟨k, hk, hbad, hfirst, ?_⟩
      rw [hrun, ← failureInfo_a]
      exact takeError_invalidDigit_failedWith s .a k (octetA s k)
    · obtain ⟨k, hk, hbad, hfirst, hrun⟩ := runCommand_invalidDigit_b hcapacity hlengths hparity hdigitsA hdigitsB
      refine ⟨k, hk, hbad, hfirst, ?_⟩
      rw [hrun, ← failureInfo_b]
      exact takeError_invalidDigit_failedWith s .b k (octetB s k)
    · obtain ⟨out, hout⟩ := exists_runCommand_done hcapacity hlengths hparity hdigitsA hdigitsB
      obtain ⟨hstatus, _, hpos, hinfo⟩ := (finish_runCommand_done hl hout).1
      exact ⟨hstatus, hpos, hinfo⟩

end Sys2Proof.Machine
end

section
/-! The statement about the register values after reset (spec/70_reset_and_hazards.md). -/

namespace Sys2Proof.Machine

/-- Every register but the two capacities reads 0 after reset (R44). -/
theorem readReg_resetOf_eq_zero (c : Config) {r : Reg} (hin : r ≠ .capIn) (hout : r ≠ .capOut) :
    readReg (State.resetOf c) r = 0 := by
  cases r with
  | capIn => exact absurd rfl hin
  | capOut => exact absurd rfl hout
  | cmd | status | lenA | lenB | lenOut | errPos | errInfo => rfl

/-- Settles O35: the registers by R44's two kinds, the reserved offsets by their place in the address map. -/
theorem resetValuesOfEveryRegister : Obligations.ResetValuesOfEveryRegister := by
  refine ⟨fun c => ⟨?_, ?_, ?_, ?_, ?_, ?_, ?_, ?capIn, ?capOut⟩, fun off hlo hhi => ?reserved, ?referenceCapIn, ?referenceCapOut⟩
  case reserved => exact readAt_reserved (placeOf_eq_reserved (.inl ⟨hlo, by omega⟩)) 4
  case capIn | capOut | referenceCapIn | referenceCapOut => rfl
  all_goals exact readReg_resetOf_eq_zero c (by decide) (by decide)

end Sys2Proof.Machine
end

section
/-! The statements about the encoding of commands, and the step of a CMD write (spec/30_encoding.md). -/

namespace Sys2Proof.Machine

/-- Settles O1: the decoder answers a command exactly on its encoding, and a 32-bit word's table number is the word itself. -/
theorem decodeEncodeAgree : Obligations.DecodeEncodeAgree := by
  intro i _
  have hdecode : decode (encode i) = .command i := decode_eq_command_iff.2 rfl
  have hnumber : (encode i).toNat % 2 ^ 32 = (encode i).toNat := Nat.mod_eq_of_lt (encode i).isLt
  refine ⟨hdecode, ?_, fun w => decode_eq_command_iff.1⟩
  rw [decodeTableWord, hnumber, if_pos (encode i).isLt, BitVec.ofNat_toNat, BitVec.setWidth_eq, hdecode, Decoded.instr?]

/-- Settles O3: each command word is that command's encoding; the other five are evaluated. -/
theorem sampleWordsDecode : Obligations.SampleWordsDecode := by
  refine ⟨decode_eq_command_iff.2 rfl, decode_eq_command_iff.2 rfl, decode_eq_command_iff.2 rfl, decode_eq_command_iff.2 rfl,
    decode_eq_command_iff.2 rfl, ?_, ?_, ?_, ?_, ?_⟩ <;> decide

/-- Placing a 32-bit word at the fetch place is issuing its write to CMD (R70, R79). -/
theorem withFetchWord_eq_issue (s : State) (w : Word) : s.withFetchWord 32 w.toNat = s.issue (.write s.cfg.base 4 w) := by
  have hword : BitVec.ofNat 32 (w.toNat % 2 ^ 32) = w := by rw [Nat.mod_eq_of_lt w.isLt, BitVec.ofNat_toNat, BitVec.setWidth_eq]
  rw [State.withFetchWord, hword]
  rfl

/-- Settles O4: both routes issue the write to CMD, whose step performs the decoded command and completes. -/
theorem stepRunsDecodedCommand : Obligations.StepRunsDecodedCommand := by
  intro s w i hl hdecode
  have hstep : step (s.issue (.write (s.cfg.base + 0x000) 4 w)) = completeWrite (exec i s) := by
    rw [exec_eq_finish, ← runWord_command hdecode]
    exact step_issue_cmd hl w
  refine ⟨hstep, ?_, fun t ht => ?_⟩
  · rwa [withFetchWord_eq_issue]
  · rw [hstep, ht, completeWrite]

end Sys2Proof.Machine
end

section
/-! SUPPORT. The report words a command's result gives, the result's octets in BUF_OUT, and which errors a command can raise. -/

namespace Sys2Proof.Machine

/-- The octets a result puts into BUF_OUT (R165, R166): none after an error. -/
def CmdResult.octets : CmdResult → List Byte
  | .done out => out
  | .raised _ => []

theorem CmdResult.octets_fit {r : CmdResult} {n : Nat} (h : ∀ out, r = .done out → out.length ≤ n) : r.octets.length ≤ n := by
  cases r with
  | done out => exact h out rfl
  | raised e => exact Nat.zero_le n

theorem runCommand_octets_fit (i : Instr) (s : State) : (runCommand i s).octets.length ≤ s.cfg.maxOut :=
  CmdResult.octets_fit fun _ => runCommand_done_fits

theorem runWord_octets_fit (w : Word) (s : State) : (runWord w s).octets.length ≤ s.cfg.maxOut :=
  CmdResult.octets_fit fun _ => runWord_done_fits

/-- LEN_OUT is the number of result octets (R165, R166). -/
theorem finish_lenOut (s : State) (r : CmdResult) : (s.finish r).lenOut = BitVec.ofNat 32 r.octets.length := by
  cases r <;> rfl

/-- A result that fits BUF_OUT has its length in LEN_OUT, with no wrap. -/
theorem finish_lenOut_toNat {s : State} {r : CmdResult} (hl : s.cfg.legal = true) (hfit : r.octets.length ≤ s.cfg.maxOut) :
    (s.finish r).lenOut.toNat = r.octets.length := by
  have hmax := maxOut_le_of_legal hl
  rw [finish_lenOut, BitVec.toNat_ofNat, Nat.mod_eq_of_lt (by omega)]

/-- Either report leaves the result's octets listed in BUF_OUT, and no other. -/
theorem finish_mem (s : State) (r : CmdResult) :
    (s.finish r).mem = (s.mem.clear bufOutBase (bufOutBase + s.cfg.maxOut)).writeAll bufOutBase r.octets := by
  cases r <;> rfl

/-- Only INVALID_DIGIT has status 0x23, only ILLEGAL_OP 0x43, and no failure has the status of a success (R160, R165, R166). -/
theorem failureStatus_eq (c : ErrCode) :
    (failureStatus c = 0x23 → c = .invalidDigit) ∧ (failureStatus c = 0x43 → c = .illegalOp) ∧ failureStatus c ≠ 0x01 := by
  cases c <;> decide

/-- Either report leaves one of R25's values in STATUS. -/
theorem statusLegal_finish (s : State) (r : CmdResult) : StatusLegal (s.finish r).status := by
  cases r with
  | done out => exact .inr (.inl rfl)
  | raised e =>
    change StatusLegal (failureStatus e.code)
    cases e.code <;> decide

/-- The fields of the seven values of STATUS: ERR agrees with ERR_CODE, which is 0 to 5, and the reserved bits are 0 (R25, R27,
R28). -/
theorem statusFields_of_legal {w : Word} (h : StatusLegal w) :
    (statusErr w = true ↔ statusCode w ≠ 0) ∧ (statusCode w).toNat ≤ 5 ∧ w.extractLsb' 2 2 = 0 ∧ w.extractLsb' 8 24 = 0 := by
  rcases h with rfl | rfl | rfl | rfl | rfl | rfl | rfl <;> decide

/-- ERR_INFO has no bit above ERR_OPND (R33). -/
theorem failureInfo_lt (o : Operand) (ch : Byte) : (failureInfo o ch).toNat < 0x200 := by
  have hch : (ch.setWidth 32).toNat < 2 ^ 9 := by
    rw [BitVec.toNat_setWidth, Nat.mod_eq_of_lt (by omega)]
    omega
  cases o with
  | a => rwa [failureInfo_a]
  | b => exact BitVec.toNat_or .. ▸ Nat.or_lt_two_pow (by decide) hch

/-- The errors a command can raise: one found in no operand, or INVALID_DIGIT at an index inside an operand that fits (R167). -/
theorem runCommand_raised_cases {i : Instr} {s : State} {e : CmdError} (h : runCommand i s = .raised e) :
    (∃ c, c ≠ .invalidDigit ∧ c ≠ .illegalOp ∧ e = plainError c) ∨ (e.code = .invalidDigit ∧ e.pos < s.cfg.maxIn) := by
  by_cases hcapacity : s.cfg.maxIn < s.lenA.toNat ∨ (i = .xorHex ∧ s.cfg.maxIn < s.lenB.toNat)
  · exact .inl ⟨.capacity, by decide, by decide, CmdResult.raised.inj (h.symm.trans (runCommand_over hcapacity))⟩
  by_cases hlengths : i = .xorHex ∧ s.lenA ≠ s.lenB
  · exact .inl ⟨.lengthMismatch, by decide, by decide,
      CmdResult.raised.inj (h.symm.trans (runCommand_lengthMismatch hcapacity hlengths))⟩
  by_cases hparity : UsesHex i ∧ s.lenA.toNat % 2 = 1
  · exact .inl ⟨.invalidLength, by decide, by decide,
      CmdResult.raised.inj (h.symm.trans (runCommand_invalidLength hcapacity hlengths hparity))⟩
  by_cases hdigitsA : UsesHex i ∧ (operandA s).any (fun c => hexVal c == none) = true
  · obtain ⟨k, hk, _, _, hrun⟩ := runCommand_invalidDigit_a hcapacity hlengths hparity hdigitsA
    obtain rfl := CmdResult.raised.inj (h.symm.trans hrun)
    exact .inr ⟨rfl, hk.trans_le (Nat.not_lt.1 (not_or.1 hcapacity).1)⟩
  by_cases hdigitsB : i = .xorHex ∧ (operandB s).any (fun c => hexVal c == none) = true
  · obtain ⟨k, hk, _, _, hrun⟩ := runCommand_invalidDigit_b hcapacity hlengths hparity hdigitsA hdigitsB
    obtain rfl := CmdResult.raised.inj (h.symm.trans hrun)
    rw [← lenA_eq_lenB_of_xorHex hlengths hdigitsB.1] at hk
    exact .inr ⟨rfl, hk.trans_le (Nat.not_lt.1 (not_or.1 hcapacity).1)⟩
  · obtain ⟨out, hout⟩ := exists_runCommand_done hcapacity hlengths hparity hdigitsA hdigitsB
    exact nomatch h.symm.trans hout

/-- The errors a CMD word can raise, ILLEGAL_OP of a word that is no command among them. -/
theorem runWord_raised_cases {w : Word} {s : State} {e : CmdError} (h : runWord w s = .raised e) :
    (∃ c, c ≠ .invalidDigit ∧ e = plainError c) ∨ (e.code = .invalidDigit ∧ e.pos < s.cfg.maxIn) := by
  cases hdecode : decode w with
  | command i =>
    rw [runWord_command hdecode] at h
    exact (runCommand_raised_cases h).imp_left fun ⟨c, hc, _, he⟩ => ⟨c, hc, he⟩
  | illegal why =>
    rw [runWord_illegal hdecode] at h
    exact .inl ⟨.illegalOp, by decide, (CmdResult.raised.inj h).symm⟩

end Sys2Proof.Machine
end

section
/-! SUPPORT. The invariant of the state (`State.Inv`), kept by each thing a step can do. -/

namespace Sys2Proof.Machine

/-- A listed offset is placed when the host can write it or the result holds it. -/
theorem cellPlaced_iff {s : State} (hl : s.cfg.legal = true) (hfit : s.lenOut.toNat ≤ s.cfg.maxOut) (off : Nat) :
    cellPlaced s off = true ↔ Writable s.cfg off ∨ (0x30000 ≤ off ∧ off < 0x30000 + s.lenOut.toNat) := by
  have hin := maxIn_le_of_legal hl
  have hout := maxOut_le_of_legal hl
  unfold Writable
  rcases placeOf_cases off with ⟨_, ⟨r, hp, _⟩ | hp⟩ | ⟨i, _, _, hp⟩ | ⟨i, _, _, hp⟩ | ⟨i, _, _, hp⟩ | ⟨_, hp⟩
  · simp only [cellPlaced, hp, Bool.false_eq_true, false_iff]
    omega
  · simp only [cellPlaced, hp, Bool.false_eq_true, false_iff]
    omega
  · simp only [cellPlaced, hp, decide_eq_true_eq]
    omega
  · simp only [cellPlaced, hp, decide_eq_true_eq]
    omega
  · simp only [cellPlaced, hp, decide_eq_true_eq]
    omega
  · simp only [cellPlaced, hp, Bool.false_eq_true, false_iff]
    omega

/-- No offset of BUF_OUT is one the host can write (R59). -/
theorem not_writable_of_bufOut {c : Config} (hl : c.legal = true) {off : Nat} (h : 0x30000 ≤ off) : ¬ Writable c off := by
  have hin := maxIn_le_of_legal hl
  unfold Writable
  omega

/-- The state after reset meets the invariant: nothing is listed and every register is 0. -/
theorem resetOf_inv {c : Config} (hl : c.legal = true) : (State.resetOf c).Inv :=
  ⟨hl, List.Pairwise.nil, nofun, .inl rfl, Nat.zero_le _, nofun, fun _ => rfl, fun _ => ⟨rfl, rfl⟩, nofun,
    (by decide : 0 < 0x200)⟩

/-- The end of a CMD word keeps the invariant: its octets fit, and only INVALID_DIGIT leaves an error place. -/
theorem finish_runWord_inv {s : State} (h : s.Inv) (w : Word) : (s.finish (runWord w s)).Inv := by
  obtain ⟨hl, hwf, hplaced, _, hfit, _⟩ := h
  have hl' : (s.finish (runWord w s)).cfg.legal = true := by rwa [State.finish_cfg]
  have hlen := finish_lenOut_toNat hl (runWord_octets_fit w s)
  have hfit' : (s.finish (runWord w s)).lenOut.toNat ≤ (s.finish (runWord w s)).cfg.maxOut := by
    rw [hlen, State.finish_cfg]
    exact runWord_octets_fit w s
  have hplaced' : ∀ c ∈ (s.finish (runWord w s)).mem, cellPlaced (s.finish (runWord w s)) c.1 = true := by
    intro c hc
    rw [cellPlaced_iff hl' hfit', hlen, State.finish_cfg]
    rw [finish_mem] at hc
    rcases Memory.mem_writeAll hc with hresult | hkept
    · exact .inr hresult
    · obtain ⟨hc, houtside⟩ := Memory.mem_clear.1 hkept
      have hold := (cellPlaced_iff hl hfit c.1).1 (hplaced c hc)
      exact .inl (hold.resolve_right fun hresult => by simp only [bufOutBase] at houtside; omega)
  refine ⟨hl', finish_keeps_wf hwf _, hplaced', statusLegal_finish .., ?_⟩
  cases hrun : runWord w s with
  | done out =>
    rw [hrun] at hfit' hlen
    refine ⟨hfit', fun _ i hi => ?_, fun hne => absurd rfl hne, fun _ => ⟨rfl, rfl⟩, nofun,
      (by decide : 0 < 0x200)⟩
    rw [hlen] at hi
    exact ne_of_eq_of_ne (takeSuccess_read_result s hi) nofun
  | raised e =>
    obtain ⟨hdigit, _, hsuccess⟩ := failureStatus_eq e.code
    refine ⟨Nat.zero_le _, fun hone => absurd hone hsuccess, fun _ => rfl, fun hne => ?_, fun heq => ?_, failureInfo_lt ..⟩
    · rcases runWord_raised_cases hrun with ⟨c, _, rfl⟩ | ⟨hcode, _⟩
      · exact (takeError_plainError_failedWith s c).2.2
      · exact absurd (congrArg failureStatus hcode) hne
    · rcases runWord_raised_cases hrun with ⟨c, hc, rfl⟩ | ⟨_, hpos⟩
      · exact absurd (hdigit heq) hc
      · exact (Nat.mod_le e.pos (2 ^ 32)).trans_lt hpos

/-- A write to a place other than CMD keeps the invariant: it stores a length, or octets where the host can write. -/
theorem writeAt_inv {s : State} (h : s.Inv) (off size : Nat) (v : Word) : (writeAt s off size v).Inv := by
  obtain ⟨hl, hwf, hplaced, hstatus, hfit, hlisted, hreport⟩ := h
  rcases writeAt_cases s off size v hl with heq | heq | ⟨m, heq, hmwf, hread, hcells⟩
  · rw [heq]
    exact ⟨hl, hwf, hplaced, hstatus, hfit, hlisted, hreport⟩
  · rw [heq]
    exact ⟨hl, hwf, hplaced, hstatus, hfit, hlisted, hreport⟩
  · rw [heq]
    refine ⟨hl, hmwf hwf, fun c hc => ?_, hstatus, hfit, fun hone i hi => ?_, hreport⟩
    · rcases hcells c hc with hold | hnew
      · exact hplaced c hold
      · exact (cellPlaced_iff (s := s.setMem m) hl hfit c.1).2 (.inl hnew)
    · have hkept := hread (bufOutBase + i) fun hin => not_writable_of_bufOut hl (Nat.le_add_right ..) hin.2.2
      rw [State.setMem_mem, hkept]
      exact hlisted hone i hi

end Sys2Proof.Machine
end

section
/-! The statements about the invariant (spec/70_reset_and_hazards.md). -/

namespace Sys2Proof.Machine

/-- Settles O41, by the cases of a step: the invariant speaks of neither the host's list nor the responses, and the end of a command, a
write and a reset each keep it. -/
theorem stepKeepsInv : Obligations.StepKeepsInv := by
  intro s t hinv h
  rcases step_cases h with ⟨_, rfl⟩ | ⟨e, rest, _, rfl | ⟨r, rfl⟩ | ⟨w, rfl⟩ | ⟨off, size, v, _, _, rfl⟩ | ⟨_, rfl⟩⟩
  · exact hinv
  · exact hinv
  · exact hinv
  · exact finish_runWord_inv (s := s.setScript rest) hinv w
  · exact writeAt_inv (s := s.setScript rest) hinv off size v
  · exact resetOf_inv hinv.1

/-- Settles O42: the reference configuration is legal. -/
theorem resetMeetsInv : Obligations.ResetMeetsInv := ⟨resetOf_inv (by decide), fun _ => resetOf_inv⟩

/-- Settles O43, by induction on the run: the launch is a reset state with a list, and every step keeps the invariant and the
parameters. -/
theorem reachableStatesMeetInv : Obligations.ReachableStatesMeetInv := by
  intro c s hl hreach
  have hkept : s.Inv ∧ s.cfg = c := by
    induction hreach with
    | clean es => exact ⟨resetOf_inv hl, rfl⟩
    | step _ h ih =>
      obtain ⟨hinv, hcfg⟩ := ih
      exact ⟨stepKeepsInv _ _ hinv h, (step_keeps_cfg h).trans hcfg⟩
  obtain ⟨hinv, hcfg⟩ := hkept
  have hstatus : StatusLegal s.status := by
    obtain ⟨_, _, _, hstatus, _⟩ := hinv
    exact hstatus
  exact ⟨hinv, hcfg, (statusFields_of_legal hstatus).2.1⟩

end Sys2Proof.Machine
end

section
/-! SUPPORT. What a command's result depends on (R42), and the whole of BUF_OUT after a result (U1, U2). -/

namespace Sys2Proof.Machine

/-- The report registers after a result depend on the result alone. -/
theorem finish_report_congr (s₁ s₂ : State) (r : CmdResult) :
    (s₁.finish r).status = (s₂.finish r).status ∧ (s₁.finish r).lenOut = (s₂.finish r).lenOut
      ∧ (s₁.finish r).errPos = (s₂.finish r).errPos ∧ (s₁.finish r).errInfo = (s₂.finish r).errInfo := by
  cases r <;> exact ⟨rfl, rfl, rfl, rfl⟩

/-- Inside capacity BUF_OUT lists octet `k` of the result, and nothing beyond it. -/
theorem finish_read_bufOut {s : State} {k : Nat} (hk : k < s.cfg.maxOut) (r : CmdResult) :
    (s.finish r).mem.read (bufOutBase + k) = r.octets[k]? := by
  rw [finish_mem]
  by_cases hin : k < r.octets.length
  · rw [Memory.writeAll_read_inside _ _ hin, List.getElem?_eq_getElem hin]
  · have hbeyond := Nat.not_lt.1 hin
    rw [Memory.writeAll_read_outside _ _ (.inr (Nat.add_le_add_left hbeyond _)), List.getElem?_eq_none hbeyond]
    exact Memory.clear_read_inside _ ⟨Nat.le_add_right .., Nat.add_lt_add_left hk _⟩

/-- After any result the host reads octet `k` of BUF_OUT as octet `k` of the result or, beyond it, as the value just drawn. -/
theorem resultOctet_finish {s : State} (hl : s.cfg.legal = true) {k : Nat} (hk : k < s.cfg.maxOut) (r : CmdResult) :
    resultOctet (s.finish r) k = some (r.octets[k]?.getD (Config.drawnOctet (s.draws + 1) k)) := by
  have hcfg := State.finish_cfg s r
  have hread : resultOctet (s.finish r) k = outOctet (s.finish r) k := hostOctet_bufOut (hcfg ▸ hl) (hcfg ▸ hk)
  rw [hread, outOctet, finish_read_bufOut hk, State.finish_draws, statusDone_finish, if_pos rfl]
  cases r.octets[k]? <;> rfl

/-- In any two legal states one result, which fits both, leaves one report and the same result octets. -/
theorem finish_outcome_congr {s₁ s₂ : State} {r : CmdResult} (hl₁ : s₁.cfg.legal = true) (hl₂ : s₂.cfg.legal = true)
    (hfit₁ : r.octets.length ≤ s₁.cfg.maxOut) (hfit₂ : r.octets.length ≤ s₂.cfg.maxOut) {k : Nat}
    (hk : k < (s₁.finish r).lenOut.toNat) : resultOctet (s₁.finish r) k = resultOctet (s₂.finish r) k := by
  rw [finish_lenOut_toNat hl₁ hfit₁] at hk
  rw [resultOctet_finish hl₁ (hk.trans_le hfit₁), resultOctet_finish hl₂ (hk.trans_le hfit₂), List.getElem?_eq_getElem hk,
    Option.getD_some, Option.getD_some]

/-- The end of a command leaves every octet below BUF_OUT. -/
theorem finish_read_below {s : State} (r : CmdResult) {off : Nat} (hoff : off < 0x30000) :
    (s.finish r).mem.read off = s.mem.read off := by
  rw [finish_mem, Memory.writeAll_read_outside _ _ (.inl hoff), Memory.clear_read_outside _ (.inl hoff)]

theorem operandOctets_congr {s₁ s₂ : State} {base n : Nat}
    (h : ∀ k < n, operandOctet s₁ (base + k) = operandOctet s₂ (base + k)) : operandOctets s₁ base n = operandOctets s₂ base n :=
  List.map_congr_left fun k hk => h k (List.mem_range.1 hk)

/-- A command's result is a function of MAX_IN and the operands it uses (R42), octets beyond MAX_IN not among them (R164). -/
theorem runCommand_congr {i : Instr} {s₁ s₂ : State} (hmax : s₁.cfg.maxIn = s₂.cfg.maxIn) (hlenA : s₁.lenA = s₂.lenA)
    (hA : ∀ k < s₁.lenA.toNat, k < s₁.cfg.maxIn → octetA s₁ k = octetA s₂ k)
    (hB : i = .xorHex → s₁.lenB = s₂.lenB ∧ ∀ k < s₁.lenB.toNat, k < s₁.cfg.maxIn → octetB s₁ k = octetB s₂ k) :
    runCommand i s₁ = runCommand i s₂ := by
  have hopA (hfit : ¬ s₁.cfg.maxIn < s₁.lenA.toNat) : operandA s₁ = operandA s₂ := by
    rw [operandA, operandA, ← hlenA]
    exact operandOctets_congr fun k hk => hA k hk (hk.trans_le (Nat.not_lt.1 hfit))
  by_cases hi : i = .xorHex
  · obtain ⟨hlenB, hB⟩ := hB hi
    have hopB (hfit : ¬ s₁.cfg.maxIn < s₁.lenB.toNat) : operandB s₁ = operandB s₂ := by
      rw [operandB, operandB, ← hlenB]
      exact operandOctets_congr fun k hk => hB k hk (hk.trans_le (Nat.not_lt.1 hfit))
    rw [hi, runCommand, runCommand, withOperandsAB, withOperandsAB, ← hmax, ← hlenA, ← hlenB]
    refine if_ctx_congr Iff.rfl (fun _ => rfl) fun hfit => ?_
    rw [hopA (not_or.1 hfit).1, hopB (not_or.1 hfit).2]
  · obtain ⟨f, hf⟩ := runCommand_eq_withOperandA hi
    rw [hf, hf, withOperandA, withOperandA, ← hmax, ← hlenA]
    exact if_ctx_congr Iff.rfl (fun _ => rfl) fun hfit => congrArg f (hopA hfit)

/-- The end of a command leaves the buffers of the operands, so that a CMD word gives the same result after it (R41, R60). -/
theorem runWord_finish {s : State} (hl : s.cfg.legal = true) (r : CmdResult) (w : Word) :
    runWord w (s.finish r) = runWord w s := by
  have hin := maxIn_le_of_legal hl
  cases hdecode : decode w with
  | illegal why => rw [runWord_illegal hdecode, runWord_illegal hdecode]
  | command i =>
    rw [runWord_command hdecode, runWord_command hdecode]
    have hoctet {off : Nat} (hoff : off < 0x30000) : operandOctet (s.finish r) off = operandOctet s off :=
      operandOctet_congr (finish_read_below r hoff) (State.finish_resets s r)
    have hcfg := State.finish_cfg s r
    refine runCommand_congr (congrArg _ hcfg) (State.finish_lenA s r) (fun k _ hk => hoctet ?_)
      fun _ => ⟨State.finish_lenB s r, fun k _ hk => hoctet ?_⟩
    · rw [hcfg] at hk
      exact (Nat.add_lt_add_left (hk.trans_le hin.2) 0x10000).trans (by decide)
    · rw [hcfg] at hk
      exact Nat.add_lt_add_left (hk.trans_le hin.2) 0x20000

/-- Writing its free value to an octet that holds no value changes what no command reads (R182, U4). -/
theorem operandOctet_write_unwritten {s : State} {off : Nat} (hnone : s.mem.read off = none) (a : Nat) :
    operandOctet (s.setMem (s.mem.write off (Config.unwrittenOctet s.resets off))) a = operandOctet s a := by
  by_cases ha : a = off
  · subst ha
    simp only [operandOctet, State.setMem_mem, Memory.write_read_same, hnone]
  · exact operandOctet_congr (Memory.write_read_other _ _ ha) rfl

/-- The reserved bits of ERR_INFO are 0 (R33). -/
theorem failureInfo_reserved (o : Operand) (ch : Byte) : (failureInfo o ch).extractLsb' 9 23 = 0 := by
  have hlt := failureInfo_lt o ch
  apply BitVec.eq_of_toNat_eq
  rw [BitVec.extractLsb'_toNat, Nat.shiftRight_eq_div_pow, Nat.div_eq_of_lt hlt]
  rfl

theorem hexCharAt_even (f : Nat → Byte) (k : Nat) : hexCharAt f (2 * k) = hexChr ((f k).extractLsb' 4 4) := by
  rw [hexCharAt, if_pos (by omega), Nat.mul_div_cancel_left k Nat.two_pos]

theorem hexCharAt_odd (f : Nat → Byte) (k : Nat) : hexCharAt f (2 * k + 1) = hexChr ((f k).extractLsb' 0 4) := by
  have hhalf : (2 * k + 1) / 2 = k := by omega
  rw [hexCharAt, if_neg (by omega), hhalf]

end Sys2Proof.Machine
end

section
/-! The statements about what a command's outcome is and depends on (spec/10_state.md, spec/60_exceptions.md). -/

namespace Sys2Proof.Machine

/-- Settles O13: the operands determine the result, and the result the report and the octets it fills. -/
theorem outcomeDependsOnOperandsAlone : Obligations.OutcomeDependsOnOperandsAlone := by
  intro i s₁ s₂ t₁ t₂ hl₁ hl₂ hmax hlenA hA hB h₁ h₂
  have hrun : runCommand i s₁ = runCommand i s₂ := by
    refine runCommand_congr hmax hlenA (fun k hk _ => hA k hk) fun hi => ?_
    obtain ⟨hlenB, hB⟩ := hB hi
    exact ⟨hlenB, fun k hk _ => hB k hk⟩
  have hfit₁ := runCommand_octets_fit i s₁
  have hfit₂ := runCommand_octets_fit i s₂
  rw [eq_finish_of_exec_next h₁, eq_finish_of_exec_next h₂, ← hrun]
  rw [← hrun] at hfit₂
  obtain ⟨hstatus, hlen, hpos, hinfo⟩ := finish_report_congr s₁ s₂ (runCommand i s₁)
  exact ⟨hstatus, hlen, hpos, hinfo, fun k hk => finish_outcome_congr hl₁ hl₂ hfit₁ hfit₂ hk⟩

/-- Settles O14: the second performance meets the operands of the first, so it has the same result. -/
theorem repeatedCommandGivesSameOutcome : Obligations.RepeatedCommandGivesSameOutcome := by
  intro s t u w hl ht hu
  have hfit := runWord_octets_fit w s
  obtain rfl := eq_finish_of_performCommand_next ht
  obtain rfl := eq_finish_of_performCommand_next hu
  rw [runWord_finish hl]
  have hcfg := State.finish_cfg s (runWord w s)
  obtain ⟨hstatus, hlen, hpos, hinfo⟩ := finish_report_congr (s.finish (runWord w s)) s (runWord w s)
  refine ⟨hstatus, hlen, hpos, hinfo, State.finish_lenA .., State.finish_lenB .., fun k hk => ?_, fun a ha => ?_⟩
  · exact (finish_outcome_congr hl (hcfg ▸ hl) hfit (hcfg ▸ hfit) hk).symm
  · exact finish_read_below _ ha

/-- Settles O15: LEN_OUT is the number of the result's octets, and they fit. -/
theorem resultAlwaysFitsBufOut : Obligations.ResultAlwaysFitsBufOut := by
  intro s t w hl h
  rw [eq_finish_of_performCommand_next h, finish_lenOut_toNat hl (runWord_octets_fit w s)]
  exact runWord_octets_fit w s

/-- Settles O16, by the value `resultOctet_finish` gives for each octet of BUF_OUT. -/
theorem everyBufOutOctetHasAValueAfterACommand : Obligations.EveryBufOutOctetHasAValueAfterACommand := by
  intro s t w hl h
  rw [eq_finish_of_performCommand_next h]
  refine ⟨fun k hk => ⟨_, resultOctet_finish hl hk _⟩, fun k hbeyond hk => ?_⟩
  rw [finish_lenOut_toNat hl (runWord_octets_fit w s)] at hbeyond
  rw [resultOctet_finish hl hk, List.getElem?_eq_none hbeyond, Option.getD_none, State.finish_draws]

/-- Settles O17: the write changes no operand octet, so the result is the same, and it fills BUF_OUT the same way. HEX_ENCODE shows
octet `k` in digits `2k` and `2k + 1`, by its own rule. -/
theorem unwrittenOperandOctetIsReadWithoutError : Obligations.UnwrittenOperandOctetIsReadWithoutError := by
  refine ⟨fun i s off hl _ hnone => ⟨_, _, exec_eq_finish i s, exec_eq_finish i _, ?_⟩, fun s k hl hfit hk hnone => ?_⟩
  · have hrun : runCommand i (s.setMem (s.mem.write off (Config.unwrittenOctet s.resets off))) = runCommand i s :=
      runCommand_congr rfl rfl (fun _ _ _ => operandOctet_write_unwritten hnone _)
        fun _ => ⟨rfl, fun _ _ _ => operandOctet_write_unwritten hnone _⟩
    rw [hrun]
    generalize s.mem.write off (Config.unwrittenOctet s.resets off) = m
    obtain ⟨hstatus, hlen, hpos, hinfo⟩ := finish_report_congr s (s.setMem m) (runCommand i s)
    refine ⟨hstatus, hlen, hpos, hinfo, fun k hk => ?_⟩
    exact (resultOctet_finish hl hk _).trans (resultOctet_finish (s := s.setMem m) hl hk _).symm
  · obtain ⟨t, ht, houtcome⟩ := hexEncodeCompletes s hl
    rw [if_neg (Nat.not_lt.2 hfit)] at houtcome
    obtain ⟨⟨hstatus, _⟩, hoctets⟩ := houtcome
    have hfree : octetA s k = Config.unwrittenOctet s.resets (0x10000 + k) := by
      simp only [octetA, operandOctet, bufABase, hnone]
    refine ⟨t, ht, hstatus, ?_, ?_⟩
    · rw [hoctets (2 * k) (by omega), ← hfree, hexCharAt_even]
    · rw [hoctets (2 * k + 1) (by omega), ← hfree, hexCharAt_odd]

/-- Settles O19: a report leaves a legal STATUS, and ERR_INFO is 0 or a failure's. -/
theorem statusFieldsAfterEveryCommand : Obligations.StatusFieldsAfterEveryCommand := by
  intro s t w h
  rw [eq_finish_of_performCommand_next h]
  obtain ⟨hcode, hle, hlow, hhigh⟩ := statusFields_of_legal (statusLegal_finish s (runWord w s))
  refine ⟨hcode, hle, hlow, hhigh, ?_⟩
  cases runWord w s with
  | done out => exact BitVec.extractLsb'_zero
  | raised e => exact failureInfo_reserved ..

/-- Settles O59: `finish` keeps the host's fields and advances the draws. -/
theorem commandKeepsTheHostsRecordAndMakesOneDraw : Obligations.CommandKeepsTheHostsRecordAndMakesOneDraw := by
  intro s t w i h
  obtain ⟨r, rfl, _⟩ := command_next_cases h
  exact ⟨State.finish_script s r, State.finish_responses s r, State.finish_resets s r, State.finish_draws s r⟩

end Sys2Proof.Machine
end

section
/-! SUPPORT. The accesses the bus port accepts, and the lanes of an accepted access to a buffer window (spec/20_memory.md R54, R55,
R58). -/

namespace Sys2Proof.Machine

/-- The two forms of R54. -/
theorem accepted_iff {off size : Nat} :
    accepted off size = true ↔
      (size = 4 ∧ off % 4 = 0 ∧ off ≤ 0x7FFFC) ∨ (size = 1 ∧ 0x10000 ≤ off ∧ off ≤ 0x4FFFF) := by
  simp only [accepted, Bool.or_eq_true, Bool.and_eq_true, beq_iff_eq, decide_eq_true_eq, and_assoc]

/-- The forms of R54 in a buffer window. -/
theorem accepted_of_buffer {off size : Nat} (hlo : 0x10000 ≤ off)
    (hform : (size = 4 ∧ off % 4 = 0 ∧ off ≤ 0x4FFFC) ∨ (size = 1 ∧ off ≤ 0x4FFFF)) : accepted off size = true := by
  rw [accepted_iff]
  omega

/-- A refused write answers BUS_ERROR and does nothing else (R56). -/
theorem hostWrite_refused {s : State} {off size : Nat} (h : ¬ accepted off size = true) (v : Word) :
    hostWrite s off size v = .next (s.respond .writeBusError) := if_neg h

/-- A refused read answers BUS_ERROR (R56). -/
theorem hostRead_refused {s : State} {off size : Nat} (h : ¬ accepted off size = true) :
    hostRead s off size = .next (s.respond .readBusError) := if_neg h

/-- A word write to CMD performs the word and completes (R24, R185). -/
theorem hostWrite_cmd {s : State} {off size : Nat} (ha : accepted off size = true) (hp : placeOf off = .reg .cmd) (w : Word) :
    hostWrite s off size w = .next ((s.finish (runWord w s)).respond .writeDone) := by
  simp only [hostWrite, ha, hp, ↓reduceIte, performCommand_eq_finish, completeWrite]

/-- An accepted read that meets an octet without a value faults (U3). -/
theorem hostRead_of_unwritten {s : State} {off size o : Nat} (ha : accepted off size = true)
    (h : readAt s off size = .unwritten o) : hostRead s off size = .fault (.unwrittenOctet o) := by
  simp only [hostRead, ha, h, ↓reduceIte]

/-- Everything a host read can answer (R53, R56, R60, U3). -/
theorem hostRead_cases (s : State) (off size : Nat) :
    (accepted off size = true ∧ ∃ d, hostRead s off size = .next (s.respond (.readData d)))
    ∨ (accepted off size = true ∧ ∃ o, readAt s off size = .unwritten o ∧ hostRead s off size = .fault (.unwrittenOctet o))
    ∨ (¬ accepted off size = true ∧ hostRead s off size = .next (s.respond .readBusError)) := by
  by_cases ha : accepted off size = true
  · cases hread : readAt s off size with
    | data d => exact .inl ⟨ha, d, hostRead_of_data ha hread⟩
    | unwritten o => exact .inr (.inl ⟨ha, o, rfl, hostRead_of_unwritten ha hread⟩)
  · exact .inr (.inr ⟨ha, hostRead_refused ha⟩)

/-- Everything a host write can answer: always a next state (R53, R56, R185). -/
theorem hostWrite_cases (s : State) (off size : Nat) (v : Word) :
    (accepted off size = true ∧ placeOf off = .reg .cmd
      ∧ hostWrite s off size v = .next ((s.finish (runWord v s)).respond .writeDone))
    ∨ (accepted off size = true ∧ placeOf off ≠ .reg .cmd
      ∧ hostWrite s off size v = .next ((writeAt s off size v).respond .writeDone))
    ∨ (¬ accepted off size = true ∧ hostWrite s off size v = .next (s.respond .writeBusError)) := by
  by_cases ha : accepted off size = true
  · by_cases hp : placeOf off = .reg .cmd
    · exact .inl ⟨ha, hp, hostWrite_cmd ha hp v⟩
    · exact .inr (.inl ⟨ha, hp, hostWrite_of_ne_cmd ha hp v⟩)
  · exact .inr (.inr ⟨ha, hostWrite_refused ha v⟩)

/-- A write to any place but CMD changes the two lengths and memory alone (R59). -/
theorem writeAt_frame {s : State} (hl : s.cfg.legal = true) (off size : Nat) (v : Word) :
    ∃ a b m, writeAt s off size v = { s with lenA := a, lenB := b, mem := m } ∧ ∀ x, 0x30000 ≤ x → m.read x = s.mem.read x := by
  rcases writeAt_cases s off size v hl with h | h | ⟨m, h, _, hread, _⟩
  · exact ⟨v, s.lenB, s.mem, h, fun _ _ => rfl⟩
  · exact ⟨s.lenA, v, s.mem, h, fun _ _ => rfl⟩
  · exact ⟨s.lenA, s.lenB, m, h, fun x hx => hread x fun hin => not_writable_of_bufOut hl hx hin.2.2⟩

/-- In the buffer windows a read and a write go lane by lane (R55). -/
theorem access_of_buffer {off : Nat} (hlo : 0x10000 ≤ off) (hhi : off < 0x50000) (s : State) (size : Nat) :
    placeOf off ≠ .reg .cmd ∧ readAt s off size = readLanes s off size
      ∧ ∀ v, writeAt s off size v = writeLanes s off v size := by
  rcases placeOf_cases off with ⟨_, _⟩ | ⟨i, _, _, hp⟩ | ⟨i, _, _, hp⟩ | ⟨i, _, _, hp⟩ | ⟨_, _⟩
  · omega
  · simp [readAt, writeAt, hp]
  · simp [readAt, writeAt, hp]
  · simp [readAt, writeAt, hp]
  · omega

/-- Inside capacity the host reads BUF_A and BUF_B as memory lists them. -/
theorem hostOctet_writable {s : State} {off : Nat} (hl : s.cfg.legal = true) (h : Writable s.cfg off) :
    hostOctet s off = s.mem.read off := by
  have hin := maxIn_le_of_legal hl
  rcases h with ⟨hlo, hhi⟩ | ⟨hlo, hhi⟩
  · obtain ⟨i, rfl⟩ := Nat.exists_eq_add_of_le hlo
    simp only [hostOctet, placeOf_bufA (i := i) (by omega)]
    exact if_pos (by omega)
  · obtain ⟨i, rfl⟩ := Nat.exists_eq_add_of_le hlo
    simp only [hostOctet, placeOf_bufB (i := i) (by omega)]
    exact if_pos (by omega)

/-- At or above its buffer's capacity an octet reads 0 (R58). -/
theorem hostOctet_beyond {s : State} {off : Nat}
    (h : (0x10000 + s.cfg.maxIn ≤ off ∧ off < 0x20000) ∨ (0x20000 + s.cfg.maxIn ≤ off ∧ off < 0x30000)
      ∨ 0x30000 + s.cfg.maxOut ≤ off) : hostOctet s off = some 0 := by
  rcases h with ⟨hlo, hhi⟩ | ⟨hlo, hhi⟩ | hpast
  · obtain ⟨i, rfl⟩ := Nat.exists_eq_add_of_le (Nat.le_of_add_right_le hlo)
    simp only [hostOctet, placeOf_bufA (i := i) (by omega)]
    exact if_neg (by omega)
  · obtain ⟨i, rfl⟩ := Nat.exists_eq_add_of_le (Nat.le_of_add_right_le hlo)
    simp only [hostOctet, placeOf_bufB (i := i) (by omega)]
    exact if_neg (by omega)
  · exact hostOctet_past_bufOut hpast

/-- With no octet listed and STATUS 0, as after a reset, no buffer octet inside capacity has a value (R182, U3). -/
theorem hostOctet_none_of_no_cells {s : State} (hl : s.cfg.legal = true) (hmem : s.mem = []) (hstatus : s.status = 0) :
    (∀ i < s.cfg.maxIn, hostOctet s (0x10000 + i) = none ∧ hostOctet s (0x20000 + i) = none)
      ∧ ∀ i < s.cfg.maxOut, hostOctet s (0x30000 + i) = none := by
  refine ⟨fun i hi => ⟨?_, ?_⟩, fun i hi => ?_⟩
  · rw [hostOctet_writable hl (.inl ⟨Nat.le_add_right .., Nat.add_lt_add_left hi _⟩), hmem, Memory.read_nil]
  · rw [hostOctet_writable hl (.inr ⟨Nat.le_add_right .., Nat.add_lt_add_left hi _⟩), hmem, Memory.read_nil]
  · have hdone : statusDone s.status = false := by
      rw [hstatus]
      decide
    refine (hostOctet_bufOut hl hi).trans ?_
    simp only [outOctet, hmem, Memory.read_nil, hdone, Bool.false_eq_true, ↓reduceIte]

/-- A read of lanes faults at the first octet without a value (U3; log 5). -/
theorem readLanes_unwritten {s : State} {n k : Nat} {off : Nat} (hk : k < n) (hnone : hostOctet s (off + k) = none)
    (hfirst : ∀ j < k, hostOctet s (off + j) ≠ none) : readLanes s off n = .unwritten (off + k) := by
  induction n generalizing off k with
  | zero => exact absurd hk (Nat.not_lt_zero k)
  | succ n ih =>
    cases k with
    | zero =>
      have hnone : hostOctet s off = none := hnone
      simp only [readLanes, hnone, Nat.add_zero]
    | succ k =>
      obtain ⟨b, hb⟩ := Option.ne_none_iff_exists'.1 (hfirst 0 (Nat.succ_pos k))
      have hb : hostOctet s off = some b := hb
      have hshift (j : Nat) : off + 1 + j = off + (j + 1) := by omega
      have hrest := ih (off := off + 1) (Nat.lt_of_succ_lt_succ hk) (by rwa [hshift])
        fun j hj => by rw [hshift]; exact hfirst (j + 1) (Nat.succ_lt_succ hj)
      simp only [readLanes, hb, hrest, hshift]

/-- The octet a read of lanes faults at is a covered one without a value (U3). -/
theorem unwritten_of_readLanes {s : State} {n off o : Nat} (h : readLanes s off n = .unwritten o) :
    off ≤ o ∧ o < off + n ∧ hostOctet s o = none := by
  induction n generalizing off with
  | zero => exact nomatch h
  | succ n ih =>
    rw [readLanes] at h
    split at h
    case h_1 hnone =>
      obtain rfl := ReadResult.unwritten.inj h
      exact ⟨le_rfl, by omega, hnone⟩
    case h_2 b _ =>
      split at h
      case h_1 o' hrest =>
        obtain rfl := ReadResult.unwritten.inj h
        obtain ⟨hlo, hhi, hnone⟩ := ih hrest
        exact ⟨by omega, by omega, hnone⟩
      case h_2 => exact nomatch h

/-- Four lanes, each put below the lanes above it, are the four octets in their places (R55). -/
theorem lanes_or (b0 b1 b2 b3 : Word) :
    ((b3 <<< 8 ||| b2) <<< 8 ||| b1) <<< 8 ||| b0 = b0 ||| b1 <<< 8 ||| b2 <<< 16 ||| b3 <<< 24 := by
  simp only [BitVec.shiftLeft_or_distrib, ← BitVec.shiftLeft_add, Nat.reduceAdd]
  rw [BitVec.or_comm _ b0, BitVec.or_comm _ (b1 <<< 8), BitVec.or_comm (b3 <<< 24), BitVec.or_assoc, BitVec.or_assoc]

/-- A lane that has a value goes below the lanes above it (R55). -/
theorem readLanes_succ {s : State} {off n : Nat} {b : Byte} {v : Word} (hb : hostOctet s off = some b)
    (hrest : readLanes s (off + 1) n = .data v) : readLanes s off (n + 1) = .data ((v <<< 8) ||| b.setWidth 32) := by
  simp only [readLanes, hb, hrest]

/-- A read of one lane gives its octet, with zeros above it (R55; log 17). -/
theorem readLanes_one {s : State} {off : Nat} {b : Byte} (h : hostOctet s off = some b) :
    readLanes s off 1 = .data (b.setWidth 32) := by
  have hzero : (0 : Word) <<< 8 = 0 := by decide
  rw [readLanes_succ h (n := 0) rfl, hzero]
  exact congrArg _ BitVec.zero_or

/-- A read of four lanes gives octet `k` in bits 8k+7 to 8k (R55). -/
theorem readLanes_four {s : State} {off : Nat} {b0 b1 b2 b3 : Byte} (h0 : hostOctet s off = some b0)
    (h1 : hostOctet s (off + 1) = some b1) (h2 : hostOctet s (off + 2) = some b2) (h3 : hostOctet s (off + 3) = some b3) :
    readLanes s off 4 = .data (b0.setWidth 32 ||| (b1.setWidth 32 <<< 8) ||| (b2.setWidth 32 <<< 16)
      ||| (b3.setWidth 32 <<< 24)) := by
  rw [readLanes_succ h0 (readLanes_succ h1 (readLanes_succ h2 (readLanes_one h3))), lanes_or]

/-- A write of lanes where no lane is writable does nothing (R58, R59). -/
theorem writeLanes_not_writable {s : State} {off n : Nat} (h : ∀ k < n, ¬ Writable s.cfg (off + k)) (v : Word) :
    writeLanes s off v n = s := by
  induction n generalizing off v with
  | zero => rfl
  | succ n ih =>
    have hfirst : ¬ Writable s.cfg off := h 0 (Nat.succ_pos n)
    rw [writeLanes, writeOctet_not_writable hfirst]
    refine ih (fun k hk => ?_) _
    have hlane := h (k + 1) (Nat.succ_lt_succ hk)
    rwa [Nat.add_comm k, ← Nat.add_assoc] at hlane

theorem writeOctet_cfg {s : State} (hl : s.cfg.legal = true) (off : Nat) (b : Byte) : (writeOctet s off b).cfg = s.cfg := by
  rcases writeOctet_cases s off b hl with h | ⟨_, h⟩ <;> rw [h]
  rfl

/-- A write of lanes stores lane `k`, bits 8k+7 to 8k, in the octet at `off + k`, when that octet is writable (R55). -/
theorem writeLanes_read_lane {s : State} {off n k : Nat} (hl : s.cfg.legal = true) (hk : k < n)
    (hw : Writable s.cfg (off + k)) (v : Word) :
    (writeLanes s off v n).mem.read (off + k) = some (v.extractLsb' (8 * k) 8) := by
  induction n generalizing s off k v with
  | zero => exact absurd hk (Nat.not_lt_zero k)
  | succ n ih =>
    have hcfg := writeOctet_cfg hl off (v.setWidth 8)
    rw [writeLanes]
    cases k with
    | zero =>
      have hw : Writable s.cfg off := hw
      obtain ⟨m, hm, _, hread, _⟩ := writeLanes_changes_only_mem n (writeOctet s off (v.setWidth 8)) (off + 1) (v >>> 8) (hcfg ▸ hl)
      rw [hm, State.setMem_mem, Nat.add_zero, hread off (by omega), writeOctet_writable hl hw, State.setMem_mem,
        Memory.write_read_same, Nat.mul_zero, ← BitVec.setWidth_eq_extractLsb' (by decide)]
    | succ k =>
      have hshift : off + 1 + k = off + (k + 1) := by omega
      have hlane : (v >>> 8).extractLsb' (8 * k) 8 = v.extractLsb' (8 * (k + 1)) 8 := by
        ext i hi
        simp only [BitVec.getElem_extractLsb', BitVec.getLsbD_ushiftRight, Nat.mul_succ, Nat.add_assoc, Nat.add_comm 8]
      rw [← hlane, ← hshift]
      exact ih (hcfg ▸ hl) (Nat.lt_of_succ_lt_succ hk) (by rwa [hcfg, hshift]) (v >>> 8)

/-- An accepted read of a buffer window reads lanes (R55). -/
theorem step_issue_readBuffer_data {s : State} (hl : s.cfg.legal = true) {off size : Nat} (hlo : 0x10000 ≤ off)
    (hform : (size = 4 ∧ off % 4 = 0 ∧ off ≤ 0x4FFFC) ∨ (size = 1 ∧ off ≤ 0x4FFFF)) {v : Word}
    (h : readLanes s off size = .data v) : step (s.issue (.read (s.cfg.base + off) size)) = .next (s.respond (.readData v)) := by
  obtain ⟨_, hread, _⟩ := access_of_buffer hlo (by omega) s size
  rw [step_issue_read hl (by omega), hostRead_of_data (accepted_of_buffer hlo hform) (hread.trans h)]

/-- An accepted write to a buffer window writes lanes and completes (R55). -/
theorem step_issue_writeBuffer {s : State} (hl : s.cfg.legal = true) {off size : Nat} (hlo : 0x10000 ≤ off)
    (hform : (size = 4 ∧ off % 4 = 0 ∧ off ≤ 0x4FFFC) ∨ (size = 1 ∧ off ≤ 0x4FFFF)) (v : Word) :
    step (s.issue (.write (s.cfg.base + off) size v)) = .next ((writeLanes s off v size).respond .writeDone) := by
  obtain ⟨hcmd, _, hwrite⟩ := access_of_buffer hlo (by omega) s size
  rw [step_issue_write hl (by omega), hostWrite_of_ne_cmd (accepted_of_buffer hlo hform) hcmd, hwrite]

end Sys2Proof.Machine
end

section
/-! The statements about accesses of the host (spec/20_memory.md, spec/10_state.md). -/

namespace Sys2Proof.Machine

/-- Settles O22: each of the five is the word read of a register. -/
theorem reportRegistersReadTheirValues : Obligations.ReportRegistersReadTheirValues := fun _ hl =>
  ⟨step_issue_readReg hl .cmd, step_issue_readReg hl .status, step_issue_readReg hl .lenOut, step_issue_readReg hl .errPos,
    step_issue_readReg hl .errInfo⟩

/-- Settles O23: `writeReg` leaves each of the four as it is. -/
theorem reportRegistersIgnoreWrites : Obligations.ReportRegistersIgnoreWrites := fun _ v hl =>
  ⟨step_issue_writeReg hl (r := .status) (by decide) v, step_issue_writeReg hl (r := .lenOut) (by decide) v,
    step_issue_writeReg hl (r := .errPos) (by decide) v, step_issue_writeReg hl (r := .errInfo) (by decide) v⟩

/-- Settles O24, by what an accepted and a refused access can answer. -/
theorem acceptedExactlyInTheTwoForms : Obligations.AcceptedExactlyInTheTwoForms := by
  intro s off size v hl hoff
  rw [step_issue_read hl hoff, step_issue_write hl hoff]
  split
  case isTrue hform =>
    have ha : accepted off size = true := accepted_iff.2 hform
    constructor
    · rcases hostWrite_cases s off size v with ⟨_, _, hw⟩ | ⟨_, _, hw⟩ | ⟨hna, _⟩
      · exact ⟨_, hw, congrArg _ (State.finish_responses ..)⟩
      · obtain ⟨a, b, m, hframe, _⟩ := writeAt_frame hl off size v
        rw [hframe] at hw
        exact ⟨_, hw, rfl⟩
      · exact absurd ha hna
    · rcases hostRead_cases s off size with ⟨_, d, hr⟩ | ⟨_, o, _, hr⟩ | ⟨hna, _⟩
      · exact .inl ⟨d, hr⟩
      · exact .inr ⟨o, hr⟩
      · exact absurd ha hna
  case isFalse hform =>
    have hna : ¬ accepted off size = true := mt accepted_iff.1 hform
    exact ⟨⟨_, hostWrite_refused hna v, rfl⟩, _, hostRead_refused hna, rfl⟩

/-- Settles O25: a refused access is a response alone. -/
theorem refusedAccessHasNoEffect : Obligations.RefusedAccessHasNoEffect := by
  intro s off size v hl hoff hform
  have hna : ¬ accepted off size = true := mt accepted_iff.1 hform
  rw [step_issue_read hl hoff, step_issue_write hl hoff]
  exact ⟨hostWrite_refused hna v, hostRead_refused hna⟩

/-- Settles O27: an octet is one lane, a word four. -/
theorem wordReadIsFourOctetReads : Obligations.WordReadIsFourOctetReads := by
  intro s off hl hlo
  refine ⟨fun hhi b hb => ?_, fun halign hhi b0 b1 b2 b3 h0 h1 h2 h3 => ?_⟩
  · exact step_issue_readBuffer_data hl hlo (.inr ⟨rfl, hhi⟩) (readLanes_one hb)
  · exact step_issue_readBuffer_data hl hlo (.inl ⟨rfl, halign, hhi⟩) (readLanes_four h0 h1 h2 h3)

/-- Settles O28: a write of lanes stores each writable lane and changes nothing but memory there. -/
theorem bufferWriteStoresItsLanes : Obligations.BufferWriteStoresItsLanes := by
  intro s off size v hl hlo hform
  obtain ⟨m, hm, _, hread, _⟩ := writeLanes_changes_only_mem size s off v hl
  have hstep := step_issue_writeBuffer hl hlo hform v
  rw [hm] at hstep
  refine ⟨_, hstep, fun k hk hw => ?_, fun a ha => ?_, rfl⟩
  · have hlane := writeLanes_read_lane hl hk hw v
    rw [hm] at hlane
    exact (hostOctet_writable (s := (s.setMem m).respond .writeDone) hl hw).trans hlane
  · have hkept : m.read a = s.mem.read a := hread a fun ⟨hge, hlt, hw⟩ => by
      rcases ha with hbelow | habove | hnot
      · omega
      · omega
      · exact hnot hw
    exact ⟨hkept, hostOctet_congr rfl hkept fun _ => ⟨rfl, rfl⟩⟩

/-- Settles O29: such an octet reads 0 by its place, and is not writable. -/
theorem beyondCapacityReadsZeroIgnoresWrites : Obligations.BeyondCapacityReadsZeroIgnoresWrites := by
  intro s off v hl hrange
  have hin := maxIn_le_of_legal hl
  have hzero : hostOctet s off = some 0 := hostOctet_beyond (by omega)
  have hnot : ¬ Writable s.cfg off := by
    unfold Writable
    omega
  have hlo : 0x10000 ≤ off := by omega
  have hhi : off ≤ 0x4FFFF := by omega
  refine ⟨hzero, step_issue_readBuffer_data hl hlo (.inr ⟨rfl, hhi⟩) (readLanes_one hzero), ?_⟩
  rw [step_issue_writeBuffer hl hlo (.inr ⟨rfl, hhi⟩), writeLanes_not_writable fun k hk => ?_]
  obtain rfl := Nat.lt_one_iff.1 hk
  exact hnot

/-- Settles O30: no lane of BUF_OUT is writable. -/
theorem hostWritesToBufOutAreIgnored : Obligations.HostWritesToBufOutAreIgnored := by
  intro s off size v hl hlo hform
  have hnone : writeLanes s off v size = s :=
    writeLanes_not_writable (fun k _ => not_writable_of_bufOut hl (hlo.trans (Nat.le_add_right ..))) v
  rw [step_issue_writeBuffer hl (by omega) hform, hnone]

/-- Settles O31: outside the window a read does nothing, and inside it answers at most a response. -/
theorem readsHaveNoSideEffect : Obligations.ReadsHaveNoSideEffect := by
  intro s t addr size h
  have hl : s.cfg.legal = true := legal_of_step_next (s := s.issue (.read addr size)) h
  rw [step_issue hl, performEvent] at h
  split at h
  case h_1 off _ =>
    rcases hostRead_cases s off size with ⟨_, d, hr⟩ | ⟨_, o, _, hr⟩ | ⟨_, hr⟩
    · exact .inr ⟨_, (Host.Outcome.next.inj (hr.symm.trans h)).symm⟩
    · exact nomatch hr.symm.trans h
    · exact .inr ⟨_, (Host.Outcome.next.inj (hr.symm.trans h)).symm⟩
  case h_2 => exact .inl (Host.Outcome.next.inj h).symm

/-- Settles O32: lanes are read in order up to the first without a value, and a reset leaves none in any buffer. -/
theorem hostReadOfUnwrittenOctetFaults : Obligations.HostReadOfUnwrittenOctetFaults := by
  refine ⟨fun s off size k hl hlo hform hk hnone hfirst => ?_, fun c hl => ?_⟩
  · obtain ⟨_, hread, _⟩ := access_of_buffer hlo (by omega) s size
    rw [step_issue_read hl (by omega)]
    exact hostRead_of_unwritten (accepted_of_buffer hlo hform) (hread.trans (readLanes_unwritten hk hnone hfirst))
  · exact hostOctet_none_of_no_cells (s := State.resetOf c) hl rfl rfl

/-- Settles O34: outside the window no offset is named. -/
theorem accessOutsideTheWindowHasNoEffect : Obligations.AccessOutsideTheWindowHasNoEffect := by
  intro s addr size v hl hout
  have hnone : blockOffset s.cfg addr = none := if_neg (by simp only [apertureSize]; omega)
  rw [step_issue hl, step_issue hl, performEvent, performEvent, hnone]
  exact ⟨rfl, rfl⟩

/-- Settles O39: the write performs the word, whose report sets DONE. -/
theorem everyCmdWriteCompletes : Obligations.EveryCmdWriteCompletes := fun _ w hl =>
  ⟨_, step_issue_cmd hl w, congrArg _ (State.finish_responses ..), statusDone_finish ..⟩

end Sys2Proof.Machine
end

section
/-! SUPPORT. Which launches step, which steps fault, and what each event of the host can do, with the event named. -/

namespace Sys2Proof.Machine

/-- An illegal launch does not fault: each of its steps is refused (U12, U13, U16). -/
theorem legal_of_step_fault {s : State} {f : Fault} (h : step s = .fault f) : s.cfg.legal = true := by
  rw [step, transact] at h
  split_ifs at h with hmax hbase hmaster
  rw [Config.legal, eq_true_of_ne_false hmax, eq_true_of_ne_false hbase, eq_true_of_ne_false hmaster]
  rfl

/-- A fault is the answer to an accepted read that covers an octet without a value (U3). -/
theorem fault_of_hostRead {s : State} {off size : Nat} {f : Fault} (h : hostRead s off size = .fault f) :
    accepted off size = true ∧ ∃ o, f = .unwrittenOctet o ∧ off ≤ o ∧ o < off + size ∧ hostOctet s o = none := by
  rcases hostRead_cases s off size with ⟨_, d, hr⟩ | ⟨ha, o, hread, hr⟩ | ⟨_, hr⟩
  · exact nomatch hr.symm.trans h
  · have hlanes : readLanes s off size = .unwritten o := by
      rcases placeOf_cases off with ⟨_, ⟨r, hp, _⟩ | hp⟩ | ⟨i, _, _, hp⟩ | ⟨i, _, _, hp⟩ | ⟨i, _, _, hp⟩ | ⟨_, hp⟩
      · simp only [readAt, hp, reduceCtorEq] at hread
      · simp only [readAt, hp, reduceCtorEq] at hread
      · simpa only [readAt, hp] using hread
      · simpa only [readAt, hp] using hread
      · simpa only [readAt, hp] using hread
      · simp only [readAt, hp, reduceCtorEq] at hread
    exact ⟨ha, o, (Host.Outcome.fault.inj (hr.symm.trans h)).symm, unwritten_of_readLanes hlanes⟩
  · exact nomatch hr.symm.trans h

/-- Only a read event can fault. -/
theorem fault_of_performEvent {s : State} {e : HostEvent} {f : Fault} (h : performEvent s e = .fault f) :
    ∃ off size, e = .read (s.cfg.base + off) size ∧ hostRead s off size = .fault f := by
  cases e with
  | read addr size =>
    rw [performEvent] at h
    split at h
    case h_1 off hoff => exact ⟨off, size, by rw [(addr_of_blockOffset hoff).1], h⟩
    case h_2 => exact nomatch h
  | write addr size v =>
    rw [performEvent] at h
    split at h
    case h_1 off _ =>
      rcases hostWrite_cases s off size v with ⟨_, _, hw⟩ | ⟨_, _, hw⟩ | ⟨_, hw⟩
      · exact nomatch hw.symm.trans h
      · exact nomatch hw.symm.trans h
      · exact nomatch hw.symm.trans h
    case h_2 => exact nomatch h
  | reset => exact nomatch h
  | resetDuringCommand w => exact nomatch h

/-- A legal launch with an event left performs it. -/
theorem step_of_script {s : State} {e : HostEvent} {rest : List HostEvent} (hl : s.cfg.legal = true) (hs : s.script = e :: rest) :
    step s = performEvent (s.setScript rest) e := by
  rw [step_of_legal hl, runScript, hs]

/-- The place CMD is offset 0 alone (R23). -/
theorem eq_zero_of_placeOf_cmd {off : Nat} (h : placeOf off = .reg .cmd) : off = 0 := by
  rcases placeOf_cases off with ⟨_, ⟨r, hp, hr⟩ | hp⟩ | ⟨i, _, _, hp⟩ | ⟨i, _, _, hp⟩ | ⟨i, _, _, hp⟩ | ⟨_, hp⟩
  · rw [hr, Place.reg.inj (hp.symm.trans h)]
    rfl
  all_goals exact nomatch hp.symm.trans h

/-- An accepted access to CMD is a word. -/
theorem size_of_accepted_cmd {size : Nat} (h : accepted 0 size = true) : size = 4 := by
  rcases accepted_iff.1 h with ⟨hsize, _⟩ | ⟨_, hlo, _⟩
  · exact hsize
  · omega

/-- `t` differs from `s` in the lengths, the cells below BUF_OUT and the responses alone, so that the host reads the same report and
the same BUF_OUT in both (R41, R187). -/
def ReportKept (s t : State) : Prop :=
  ∃ a b m rs, t = { s with lenA := a, lenB := b, mem := m, responses := rs } ∧ ∀ x, 0x30000 ≤ x → m.read x = s.mem.read x

theorem ReportKept.refl (s : State) : ReportKept s s := ⟨_, _, _, _, rfl, fun _ _ => rfl⟩

theorem ReportKept.respond (s : State) (r : Response) : ReportKept s (s.respond r) := ⟨_, _, _, _, rfl, fun _ _ => rfl⟩

/-- An event that is neither a reset nor a word write to CMD keeps the report (R60, R187). -/
theorem performEvent_keeps_report {s t : State} {e : HostEvent} (hl : s.cfg.legal = true) (h : performEvent s e = .next t)
    (hreset : e ≠ .reset) (habandon : ∀ w, e ≠ .resetDuringCommand w) (hcmd : ∀ w, e ≠ .write s.cfg.base 4 w) :
    ReportKept s t := by
  cases e with
  | read addr size =>
    rw [performEvent] at h
    split at h
    case h_1 off _ =>
      rcases hostRead_cases s off size with ⟨_, d, hr⟩ | ⟨_, o, _, hr⟩ | ⟨_, hr⟩
      · exact Host.Outcome.next.inj (hr.symm.trans h) ▸ ReportKept.respond ..
      · exact nomatch hr.symm.trans h
      · exact Host.Outcome.next.inj (hr.symm.trans h) ▸ ReportKept.respond ..
    case h_2 => exact Host.Outcome.next.inj h ▸ ReportKept.refl s
  | write addr size v =>
    rw [performEvent] at h
    split at h
    case h_1 off hoff =>
      rcases hostWrite_cases s off size v with ⟨ha, hp, _⟩ | ⟨_, _, hw⟩ | ⟨_, hw⟩
      · obtain rfl := eq_zero_of_placeOf_cmd hp
        rw [size_of_accepted_cmd ha, (addr_of_blockOffset hoff).1] at hcmd
        exact absurd rfl (hcmd v)
      · obtain ⟨a, b, m, hframe, hread⟩ := writeAt_frame hl off size v
        rw [hframe] at hw
        exact ⟨a, b, m, _, Host.Outcome.next.inj (h.symm.trans hw), hread⟩
      · exact Host.Outcome.next.inj (hw.symm.trans h) ▸ ReportKept.respond ..
    case h_2 => exact Host.Outcome.next.inj h ▸ ReportKept.refl s
  | reset => exact absurd rfl hreset
  | resetDuringCommand w => exact absurd rfl (habandon w)

end Sys2Proof.Machine
end

section
/-! The statements about reset, launch and the steps that fault (spec/70_reset_and_hazards.md, spec/93_implementation_defined.md). -/

namespace Sys2Proof.Machine

/-- Settles O33: the step is the next event's, and only a read can fault. -/
theorem onlyUnwrittenHostReadsFault : Obligations.OnlyUnwrittenHostReadsFault := by
  intro s f h
  have hl := legal_of_step_fault h
  cases hs : s.script with
  | nil =>
    rw [step_of_legal hl, runScript, hs] at h
    exact nomatch h
  | cons e rest =>
    rw [step_of_script hl hs] at h
    obtain ⟨off, size, rfl, hread⟩ := fault_of_performEvent h
    obtain ⟨ha, o, hf, hlo, hhi, hnone⟩ := fault_of_hostRead hread
    exact ⟨off, size, o, rest, rfl, ha, hf, hlo, hhi, hnone⟩

/-- Settles O36: both reset events take the same reset, and by the cases of a step nothing else counts a reset. -/
theorem resetEventPutsTheResetState : Obligations.ResetEventPutsTheResetState := by
  refine ⟨fun s hl => ?_, fun s t h hne => ?_⟩
  · obtain ⟨hinputs, hout⟩ := hostOctet_none_of_no_cells (s := s.takeReset) hl rfl rfl
    refine ⟨s.takeReset, step_issue hl .reset, fun w => step_issue hl (.resetDuringCommand w), fun r => ?_, hinputs, hout, rfl, rfl,
      rfl, rfl, rfl⟩
    cases r <;> rfl
  · have hl := legal_of_step_next h
    rcases step_cases h with ⟨_, rfl⟩ | ⟨e, rest, hs, rfl | ⟨r, rfl⟩ | ⟨w, rfl⟩ | ⟨off, size, v, _, _, rfl⟩ | ⟨he, _⟩⟩
    · exact absurd rfl hne
    · exact absurd rfl hne
    · exact absurd rfl hne
    · exact absurd (State.finish_resets ..) hne
    · obtain ⟨a, b, m, hframe, _⟩ := writeAt_frame (s := s.setScript rest) hl off size v
      rw [hframe] at hne
      exact absurd rfl hne
    · rcases he with rfl | ⟨w, rfl⟩
      · exact ⟨rest, .inl hs⟩
      · exact ⟨rest, .inr ⟨w, hs⟩⟩

/-- Settles O37: a legal launch steps by its script, which is empty. -/
theorem idleBlockHoldsItsState : Obligations.IdleBlockHoldsItsState := by
  intro s hl hs
  rw [step_of_legal hl, runScript, hs]

/-- Settles O38: the three checks of `transact`, in their order. -/
theorem illegalLaunchIsRefused : Obligations.IllegalLaunchIsRefused := by
  intro s
  have hmax : s.cfg.maxInLegal = true ↔ 1 ≤ s.cfg.maxIn ∧ s.cfg.maxIn ≤ 65536 := by simp [Config.maxInLegal]
  have hbase : s.cfg.baseLegal = true ↔ s.cfg.base % 0x80000 = 0 := by simp [Config.baseLegal]
  have hmaster : s.cfg.oneMaster = true ↔ s.cfg.masters = 1 := by simp [Config.oneMaster]
  simp only [step, transact]
  refine ⟨fun h => ?_, fun ⟨hlo, hhi, h⟩ => ?_, fun ⟨hlo, hhi, hb, h⟩ => ?_⟩
  · rw [if_pos (Bool.eq_false_iff.2 fun hok => by have := hmax.1 hok; omega)]
  · rw [if_neg (by simp [hmax.2 ⟨hlo, hhi⟩]), if_pos (Bool.eq_false_iff.2 (mt hbase.1 h))]
  · rw [if_neg (by simp [hmax.2 ⟨hlo, hhi⟩]), if_neg (by simp [hbase.2 hb]), if_pos (Bool.eq_false_iff.2 (mt hmaster.1 h))]

/-- Settles O40: such an event changes nothing the report and BUF_OUT are read from. -/
theorem resultLastsUntilNextCommandOrReset : Obligations.ResultLastsUntilNextCommandOrReset := by
  intro s t e rest h hs hreset habandon hcmd
  have hl := legal_of_step_next h
  rw [step_of_script hl hs] at h
  obtain ⟨a, b, m, rs, rfl, hread⟩ := performEvent_keeps_report (s := s.setScript rest) hl h hreset habandon hcmd
  exact ⟨rfl, rfl, rfl, rfl, fun k _ => hostOctet_congr rfl (hread _ (Nat.le_add_right ..)) fun _ => ⟨rfl, rfl⟩⟩

end Sys2Proof.Machine
end

section
/-! SUPPORT. The hex transformations as inverses of each other (R107, R110, R148), and which octets the encoders can write (R128, R129,
R147). -/

namespace Sys2Proof.Machine

/-- A decode succeeds exactly on an even number of digits, with the assembled pairs (R107). -/
theorem hexDecodeFn_eq_done_iff {a out : List Byte} {o : Operand} :
    hexDecodeFn a o = .done out ↔ a.length % 2 = 0 ∧ ValidHex a ∧ out = assemblePairs a := by
  constructor
  · intro h
    have hout := hexDecodeFn_eq_done h
    unfold hexDecodeFn at h
    split at h
    · exact nomatch h
    next hodd =>
      split at h
      · exact nomatch h
      next hvalid => exact ⟨by omega, firstInvalid_eq_none_iff.1 hvalid, hout⟩
  · rintro ⟨heven, hvalid, rfl⟩
    exact hexDecodeFn_valid o (by omega) hvalid

/-- The two nibbles of an octet, put together again (R105, R141). -/
theorem nibbles_append (b : Byte) : b.extractLsb' 4 4 ++ b.extractLsb' 0 4 = b :=
  calc b.extractLsb' 4 4 ++ b.extractLsb' 0 4 = b.extractLsb' 0 (4 + 4) := BitVec.extractLsb'_append_extractLsb'_eq_extractLsb' rfl
    _ = b := BitVec.extractLsb'_eq_self

theorem digitValue_hexChr (v : Nibble) : digitValue (hexChr v) = v := by
  rw [digitValue, hexVal_hexChr, Option.getD_some]

/-- Every octet of a hex encoding is a lowercase digit (R140, R141). -/
theorem eq_hexChr_of_mem_hexEncodeFn {a : List Byte} {c : Byte} (h : c ∈ hexEncodeFn a) : ∃ v, c = hexChr v := by
  induction a with
  | nil => exact nomatch h
  | cons b a ih =>
    rw [hexEncodeFn, List.mem_cons, List.mem_cons] at h
    rcases h with rfl | rfl | h
    · exact ⟨_, rfl⟩
    · exact ⟨_, rfl⟩
    · exact ih h

theorem validHex_hexEncodeFn (a : List Byte) : ValidHex (hexEncodeFn a) := by
  intro c hc
  obtain ⟨v, rfl⟩ := eq_hexChr_of_mem_hexEncodeFn hc
  rw [hexVal_hexChr]
  exact nofun

theorem assemblePairs_hexEncodeFn (a : List Byte) : assemblePairs (hexEncodeFn a) = a := by
  induction a with
  | nil => rfl
  | cons b a ih => rw [hexEncodeFn, assemblePairs, ih, digitValue_hexChr, digitValue_hexChr, nibbles_append]

/-- Decoding inverts encoding (R110). -/
theorem hexDecodeFn_hexEncodeFn (a : List Byte) (o : Operand) : hexDecodeFn (hexEncodeFn a) o = .done a :=
  hexDecodeFn_eq_done_iff.2 ⟨by rw [hexEncodeFn_length]; omega, validHex_hexEncodeFn a, (assemblePairs_hexEncodeFn a).symm⟩

/-- A digit that is no uppercase letter is the digit of its value (R100, R140). -/
theorem hexChr_digitValue {c : Byte} (hvalid : hexVal c ≠ none) (hlower : c.toNat < 0x41 ∨ 0x46 < c.toNat) :
    hexChr (digitValue c) = c := by
  have hdigit := (hexDigitsAndTheirValues c (digitValue c)).1 (hexVal_eq_digitValue hvalid)
  apply BitVec.eq_of_toNat_eq
  rw [hexChr_toNat]
  split_ifs <;> omega

/-- Encoding inverts decoding on digits that are no uppercase letters (R148). -/
theorem hexEncodeFn_assemblePairs {a : List Byte} (heven : a.length % 2 = 0) (hvalid : ValidHex a)
    (hlower : ∀ c ∈ a, c.toNat < 0x41 ∨ 0x46 < c.toNat) : hexEncodeFn (assemblePairs a) = a := by
  induction a using assemblePairs.induct with
  | case1 hi lo rest ih =>
    have hrest := ih (by simp only [List.length_cons] at heven; omega)
      (fun c hc => hvalid c (List.mem_cons_of_mem _ (List.mem_cons_of_mem _ hc)))
      (fun c hc => hlower c (List.mem_cons_of_mem _ (List.mem_cons_of_mem _ hc)))
    have hchr {c : Byte} (hc : c ∈ hi :: lo :: rest) : hexChr (digitValue c) = c := hexChr_digitValue (hvalid c hc) (hlower c hc)
    have hhi : (digitValue hi ++ digitValue lo).extractLsb' 4 4 = digitValue hi := BitVec.extractLsb'_append_eq_left
    have hlo : (digitValue hi ++ digitValue lo).extractLsb' 0 4 = digitValue lo := BitVec.extractLsb'_append_eq_right
    rw [assemblePairs, hexEncodeFn, hrest, hhi, hlo, hchr List.mem_cons_self, hchr (List.mem_cons_of_mem _ List.mem_cons_self)]
  | case2 b => exact absurd heven (by simp)
  | case3 => rfl

theorem xorFn_length (x y : List Byte) : (xorFn x y).length = min x.length y.length := List.length_zipWith

theorem xorFn_comm (x y : List Byte) : xorFn x y = xorFn y x := by
  rw [xorFn, xorFn, List.zipWith_comm]
  simp only [BitVec.xor_comm]

/-- XOR with the same octets twice gives the first operand back (R148). -/
theorem xorFn_xorFn_cancel {x y : List Byte} (h : x.length = y.length) : xorFn (xorFn x y) y = x := by
  induction x generalizing y with
  | nil => rfl
  | cons a x ih =>
    cases y with
    | nil => exact nomatch h
    | cons b y =>
      have hrest : xorFn (xorFn x y) y = x := ih (Nat.succ.inj h)
      have hfirst : a ^^^ b ^^^ b = a := by rw [BitVec.xor_assoc, BitVec.xor_self, BitVec.xor_zero]
      rw [xorFn, xorFn, List.zipWith_cons_cons, List.zipWith_cons_cons, hfirst]
      exact congrArg (a :: ·) hrest

/-- XOR_HEX of two valid operands of equal even length (R145). -/
theorem xorHexFn_valid {a b : List Byte} (hlen : a.length = b.length) (heven : a.length % 2 = 0) (ha : ValidHex a)
    (hb : ValidHex b) : xorHexFn a b = .done (hexEncodeFn (xorFn (assemblePairs a) (assemblePairs b))) :=
  xorHexFn_of_done hlen (hexDecodeFn_eq_done_iff.2 ⟨heven, ha, rfl⟩) (hexDecodeFn_eq_done_iff.2 ⟨hlen ▸ heven, hb, rfl⟩)

/-- An XOR_HEX that succeeds gives the hex encoding of an XOR (R145). -/
theorem xorHexFn_eq_done {a b out : List Byte} (h : xorHexFn a b = .done out) : ∃ x y, out = hexEncodeFn (xorFn x y) := by
  unfold xorHexFn at h
  split at h
  · split at h
    · exact nomatch h
    next x _ =>
      split at h
      · exact nomatch h
      next y _ => exact ⟨x, y, (CmdResult.done.inj h).symm⟩
  · exact nomatch h

/-- HEX_ENCODE and XOR_HEX put out a hex encoding, when they put out anything (R145, R151). -/
theorem runCommand_octets_hexEncodeFn {i : Instr} (hi : i = .hexEncode ∨ i = .xorHex) (s : State) :
    ∃ a, (runCommand i s).octets = hexEncodeFn a := by
  cases hrun : runCommand i s with
  | raised e => exact ⟨[], rfl⟩
  | done out =>
    rcases hi with rfl | rfl
    · obtain ⟨_, hout⟩ := withOperandA_eq_done (f := fun a => .done (hexEncodeFn a)) hrun
      exact ⟨operandA s, (CmdResult.done.inj hout).symm⟩
    · obtain ⟨_, _, hout⟩ := withOperandsAB_eq_done (f := xorHexFn) hrun
      obtain ⟨x, y, hxy⟩ := xorHexFn_eq_done hout
      exact ⟨xorFn x y, hxy⟩

/-- Place `k` of the encoding of `n` octets is that of an octet the last group lacks (R124). -/
def PadPlace (n k : Nat) : Prop := (k % 4 = 2 ∧ n < 3 * (k / 4) + 2) ∨ (k % 4 = 3 ∧ n < 3 * (k / 4) + 3)

/-- Each character is padding in the places of absent octets and one of the alphabet in every other (R123, R124). -/
theorem b64CharAt_cases (f : Nat → Byte) (n k : Nat) :
    (PadPlace n k ∧ b64CharAt f n k = padChar) ∨ (¬ PadPlace n k ∧ ∃ v, b64CharAt f n k = b64Char v) := by
  have hshape : ∃ w : Group, b64CharAt f n k =
      if k % 4 = 0 then b64Char (w.extractLsb' 18 6)
      else if k % 4 = 1 then b64Char (w.extractLsb' 12 6)
      else if k % 4 = 2 then (if 2 ≤ min 3 (n - 3 * (k / 4)) then b64Char (w.extractLsb' 6 6) else padChar)
      else (if min 3 (n - 3 * (k / 4)) = 3 then b64Char (w.extractLsb' 0 6) else padChar) := ⟨_, rfl⟩
  obtain ⟨w, hw⟩ := hshape
  rw [hw, PadPlace]
  split_ifs
  · exact .inr ⟨by omega, _, rfl⟩
  · exact .inr ⟨by omega, _, rfl⟩
  · exact .inr ⟨by omega, _, rfl⟩
  · exact .inl ⟨by omega, rfl⟩
  · exact .inr ⟨by omega, _, rfl⟩
  · exact .inl ⟨by omega, rfl⟩

/-- The alphabet's octets are letters, decimal digits, plus and slash (R120). -/
theorem b64Char_ranges (v : Sextet) :
    (0x41 ≤ (b64Char v).toNat ∧ (b64Char v).toNat ≤ 0x5A) ∨ (0x61 ≤ (b64Char v).toNat ∧ (b64Char v).toNat ≤ 0x7A)
      ∨ (0x30 ≤ (b64Char v).toNat ∧ (b64Char v).toNat ≤ 0x39) ∨ b64Char v = 0x2B ∨ b64Char v = 0x2F := by
  have hplus : b64Char v = 0x2B ↔ (b64Char v).toNat = 0x2B := BitVec.toNat_inj.symm
  have hslash : b64Char v = 0x2F ↔ (b64Char v).toNat = 0x2F := BitVec.toNat_inj.symm
  rw [hplus, hslash, b64Char_toNat]
  split_ifs <;> omega

/-- Character `k` of an encoding, by the octets of its own input (R121 to R125). -/
theorem b64EncodeFn_getElem?_getD (a : List Byte) {k : Nat} (hk : k < (b64EncodeFn a).length) :
    (b64EncodeFn a)[k]? = some (b64CharAt (fun i => a[i]?.getD 0) a.length k) := by
  rw [b64EncodeFn_length] at hk
  refine b64EncodeFn_getElem? (fun i hi => ?_) hk
  rw [List.getElem?_eq_getElem hi, Option.getD_some]

end Sys2Proof.Machine
end

section
/-! The laws of the transformations (spec/40_hex_decoder.md, spec/41_base64_encoder.md, spec/42_fixed_xor.md). -/

namespace Sys2Proof.Machine

/-- Settles O47, by `hexDecodeFn_eq_done_iff` and the pairs by index. -/
theorem hexDecodeFnIsCompleteOrRaises : Obligations.HexDecodeFnIsCompleteOrRaises := by
  refine fun s o => ⟨⟨fun ⟨out, h⟩ => ?_, fun ⟨heven, hvalid⟩ => ?_⟩, fun out h => ⟨hexDecodeFn_done_length h, fun k hk => ?_⟩,
    hexDecodeFn_odd o⟩
  · obtain ⟨heven, hvalid, _⟩ := hexDecodeFn_eq_done_iff.1 h
    exact ⟨heven, hvalid⟩
  · exact ⟨_, hexDecodeFn_eq_done_iff.2 ⟨heven, hvalid, rfl⟩⟩
  · rw [hexDecodeFn_eq_done h]
    exact assemblePairs_getElem? hk

/-- Settles O48: HEX_ENCODE of operand A fits, `u` holds its result as operand A, and decoding inverts encoding. -/
theorem hexEncodeThenHexDecodeIsIdentity : Obligations.HexEncodeThenHexDecodeIsIdentity := by
  intro s t u hl hcfg hfit ht hlen hoctets
  have hrunS : runCommand .hexEncode s = .done (hexEncodeFn (operandA s)) :=
    withOperandA_fits (fun a => .done (hexEncodeFn a)) (by omega)
  obtain ⟨⟨_, hout, _⟩, hresult⟩ := finish_runCommand_done hl hrunS
  rw [← eq_finish_of_exec_next ht] at hout hresult
  have hlenU : u.lenA.toNat = 2 * s.lenA.toNat := by rw [hlen, hout, hexEncodeFn_length, operandA_length]
  have hopU : operandA u = hexEncodeFn (operandA s) := by
    apply List.ext_getElem
    · rw [operandA_length, hlen, hout]
    · intro k hkU hk
      have hread := hoctets k (by rwa [hout])
      rw [hresult k hk, List.getElem?_eq_getElem hk] at hread
      rw [operandA_getElem]
      exact (Option.some.inj hread).symm
  have hrunU : runCommand .hexDecode u = .done (operandA s) := by
    have hfitU : u.lenA.toNat ≤ u.cfg.maxIn := by rw [hlenU, hcfg]; exact hfit
    refine (withOperandA_fits (fun a => hexDecodeFn a .a) hfitU).trans ?_
    rw [hopU]
    exact hexDecodeFn_hexEncodeFn (operandA s) .a
  obtain ⟨⟨hstatus, hoV, _⟩, hresultV⟩ := finish_runCommand_done (hcfg ▸ hl) hrunU
  rw [operandA_length] at hoV hresultV
  refine ⟨_, exec_eq_finish .hexDecode u, hstatus, BitVec.eq_of_toNat_eq hoV, fun k hk => ?_⟩
  rw [hresultV k hk]
  exact operandA_getElem? (by rwa [operandA_length])

/-- Settles O49, by `b64EncodeFn_length`. -/
theorem base64LengthLaw : Obligations.Base64LengthLaw := fun b =>
  ⟨b64EncodeFn_length b, by rw [b64EncodeFn_length, Nat.mul_mod_right]⟩

/-- Settles O50: the places of absent octets are those at the end of a short last group. -/
theorem base64PaddingLaw : Obligations.Base64PaddingLaw := by
  intro b k hk
  rw [b64EncodeFn_getElem?_getD b hk, Option.some.injEq]
  rw [b64EncodeFn_length] at hk ⊢
  rcases b64CharAt_cases (fun i => b[i]?.getD 0) b.length k with ⟨hplace, hpad⟩ | ⟨hplace, v, hv⟩
  · refine iff_of_true hpad ?_
    unfold PadPlace at hplace
    omega
  · refine iff_of_false (hv ▸ b64Char_ne_padChar v) ?_
    unfold PadPlace at hplace
    omega

/-- Settles O51: a character is padding or in one of the alphabet's ranges. -/
theorem base64OutputAlphabet : Obligations.Base64OutputAlphabet := by
  intro b c hc
  obtain ⟨k, hk, rfl⟩ := List.mem_iff_getElem.1 hc
  have hchar := b64EncodeFn_getElem?_getD b hk
  rw [List.getElem?_eq_getElem hk, Option.some.injEq] at hchar
  rw [hchar]
  rcases b64CharAt_cases (fun i => b[i]?.getD 0) b.length k with ⟨_, hpad⟩ | ⟨_, v, hv⟩
  · rw [hpad]
    decide
  · have hranges := b64Char_ranges v
    rw [hv]
    tauto

/-- Settles O52: the result is a hex encoding, whose octets are those of HexChr. -/
theorem hexOutputIsLowercase : Obligations.HexOutputIsLowercase := by
  intro i s t k hl hi h hk
  obtain ⟨a, ha⟩ := runCommand_octets_hexEncodeFn hi s
  have hfit := runCommand_octets_fit i s
  rw [eq_finish_of_exec_next h] at hk ⊢
  rw [finish_lenOut_toNat hl hfit] at hk
  refine ⟨(runCommand i s).octets[k], ?_, ?_⟩
  · rw [resultOctet_finish hl (hk.trans_le hfit), List.getElem?_eq_getElem hk, Option.getD_some]
  · have hmem : (runCommand i s).octets[k] ∈ hexEncodeFn a := by
      rw [← ha]
      exact List.getElem_mem hk
    obtain ⟨v, hv⟩ := eq_hexChr_of_mem_hexEncodeFn hmem
    have hlt := v.isLt
    rw [hv, hexChr_toNat]
    split_ifs <;> omega

/-- Settles O53: both passes decode what they are given, and XOR cancels. -/
theorem xorHexInvolution : Obligations.XorHexInvolution := by
  intro h₁ h₂ hlen heven hvalid₁ hvalid₂
  have hpairs : (assemblePairs h₁).length = (assemblePairs h₂).length := by rw [assemblePairs_length, assemblePairs_length, hlen]
  have hx := xorHexFn_valid hlen heven hvalid₁ hvalid₂
  have hlenX : (hexEncodeFn (xorFn (assemblePairs h₁) (assemblePairs h₂))).length = h₂.length := by
    rw [hexEncodeFn_length, xorFn_length, hpairs, min_self, assemblePairs_length]
    omega
  have hy := xorHexFn_of_done hlenX (hexDecodeFn_hexEncodeFn _ .a) (hexDecodeFn_eq_done_iff.2 ⟨hlen ▸ heven, hvalid₂, rfl⟩)
  rw [xorFn_xorFn_cancel hpairs] at hy
  refine ⟨_, _, hx, hy, ?_, fun hlower => hexEncodeFn_assemblePairs heven hvalid₁ hlower⟩
  rw [hexDecodeFn_hexEncodeFn]
  exact (hexDecodeFn_eq_done_iff.2 ⟨heven, hvalid₁, rfl⟩).symm

/-- Settles O54: XOR is symmetric octet by octet, and so is the check of the lengths. -/
theorem xorHexSymmetry : Obligations.XorHexSymmetry := by
  refine fun h₁ h₂ => ⟨fun hlen heven hvalid₁ hvalid₂ => ⟨_, xorHexFn_valid hlen heven hvalid₁ hvalid₂, ?_⟩, fun hne =>
    ⟨xorHexFn_of_length_ne hne, xorHexFn_of_length_ne hne.symm⟩⟩
  rw [xorHexFn_valid hlen.symm (hlen ▸ heven) hvalid₂ hvalid₁, xorFn_comm]

end Sys2Proof.Machine
end

section
/-! SUPPORT. The duties of the host on a word (R72, R190), and the lines LOADA and LOADB as steps (spec/30_encoding.md R79, R80). -/

namespace Sys2Proof.Machine

/-- A word with OP 1 to 5 and its reserved bits 0 is a command (R71, R72). -/
theorem decode_of_wellFormedCommand {w : Word} (h : Word.wellFormedCommand w = true) : ∃ i, decode w = .command i := by
  have hassigned : ∀ op : BitVec 4, 1 ≤ op.toNat → op.toNat ≤ 5 → (opcodeMap op).isSome = true := by decide
  simp only [Word.wellFormedCommand, Word.reservedClear, Word.opAssigned, Bool.and_eq_true, beq_iff_eq, decide_eq_true_eq] at h
  obtain ⟨hrsv, hlo, hhi⟩ := h
  obtain ⟨i, hi⟩ := Option.isSome_iff_exists.1 (hassigned (opField w) hlo hhi)
  exact ⟨i, decode_eq_command_iff.2 (eq_encode_iff.2 ⟨hrsv, opcodeMap_eq_some_iff.1 hi⟩)⟩

/-- A command ends in no ILLEGAL_OP (R164). -/
theorem finish_runCommand_status_ne_illegalOp (i : Instr) (s : State) : (s.finish (runCommand i s)).status ≠ 0x43 := by
  cases hrun : runCommand i s with
  | done out => exact (by decide : successStatus ≠ 0x43)
  | raised e =>
    intro hstatus
    have hcode : e.code = .illegalOp := (failureStatus_eq e.code).2.1 hstatus
    rcases runCommand_raised_cases hrun with ⟨c, _, hc, rfl⟩ | ⟨hdigit, _⟩
    · exact hc hcode
    · exact nomatch hdigit.symm.trans hcode

/-- An accepted write, of a command's word when it is one to CMD, completes and ends in no ILLEGAL_OP of its own (R72, R190). -/
theorem hostWrite_dutiful {s t : State} {off size : Nat} {v : Word} (hl : s.cfg.legal = true) (ha : accepted off size = true)
    (hword : placeOf off = .reg .cmd → Word.wellFormedCommand v = true) (h : hostWrite s off size v = .next t) :
    t.responses = .writeDone :: s.responses ∧ (placeOf off = .reg .cmd → t.status ≠ 0x43)
      ∧ (s.status ≠ 0x43 → t.status ≠ 0x43) := by
  rcases hostWrite_cases s off size v with ⟨_, hp, hw⟩ | ⟨_, hp, hw⟩ | ⟨hna, _⟩
  · obtain rfl := Host.Outcome.next.inj (hw.symm.trans h)
    obtain ⟨i, hi⟩ := decode_of_wellFormedCommand (hword hp)
    have hstatus : (s.finish (runWord v s)).status ≠ 0x43 := by
      rw [runWord_command hi]
      exact finish_runCommand_status_ne_illegalOp i s
    exact ⟨congrArg _ (State.finish_responses ..), fun _ => hstatus, fun _ => hstatus⟩
  · obtain ⟨a, b, m, hframe, _⟩ := writeAt_frame hl off size v
    rw [hframe] at hw
    obtain rfl := Host.Outcome.next.inj (hw.symm.trans h)
    exact ⟨rfl, fun hcmd => absurd hcmd hp, id⟩
  · exact absurd ha hna

/-- A result octet of a success is listed in memory, and the host reads it so, whatever the counters of unspecified octets are. -/
theorem resultOctet_of_inv {s : State} (hinv : s.Inv) (hsuccess : s.status = 0x01) {k : Nat} (hk : k < s.lenOut.toNat) :
    ∃ b, ∀ d r, resultOctet { s with draws := d, resets := r } k = some b := by
  obtain ⟨hl, _, _, _, hfit, hlisted, _⟩ := hinv
  obtain ⟨b, hb⟩ := Option.ne_none_iff_exists'.1 (hlisted hsuccess k hk)
  refine ⟨b, fun d r => ?_⟩
  have hread := hostOctet_bufOut (s := { s with draws := d, resets := r }) hl (hk.trans_le hfit)
  rw [resultOctet, hread, outOctet, hb]

/-- A run, then one more step. -/
theorem StepsTo.snoc {n : Nat} {s t u : State} (h : StepsTo n s t) (hlast : step t = .next u) : StepsTo (n + 1) s u := by
  induction n generalizing s with
  | zero =>
    obtain rfl := h
    exact ⟨u, hlast, rfl⟩
  | succ n ih =>
    obtain ⟨v, hfirst, hrest⟩ := h
    exact ⟨v, hfirst, ih hrest⟩

/-- The line W8 at a writable octet stores it (R79, R59). -/
theorem step_lineW8 {s : State} {off : Nat} {b : Byte} {rest : List HostEvent} (hl : s.cfg.legal = true)
    (hw : Writable s.cfg off) (hs : s.script = lineW8 s.cfg off b :: rest) :
    step s = .next (((s.setScript rest).setMem (s.mem.write off b)).respond .writeDone) := by
  have hin := maxIn_le_of_legal hl
  have hrange : 0x10000 ≤ off ∧ off ≤ 0x4FFFF := by
    unfold Writable at hw
    omega
  obtain ⟨hlo, hhi⟩ := hrange
  have hbyte : (b.setWidth 32).setWidth 8 = b := by
    rw [BitVec.setWidth_setWidth_of_le _ (by decide), BitVec.setWidth_eq]
  have hlane : writeLanes (s.setScript rest) off (b.setWidth 32) 1 = (s.setScript rest).setMem (s.mem.write off b) := by
    rw [writeLanes, writeLanes, hbyte, writeOctet_writable (s := s.setScript rest) hl hw, State.setScript_mem]
  rw [step_of_script hl hs, ← hlane, ← step_issue (s := s.setScript rest) hl]
  exact step_issue_writeBuffer (s := s.setScript rest) hl hlo (.inr ⟨rfl, hhi⟩) _

/-- The line W32 at a register other than CMD is that register's write (R79, R59). -/
theorem step_lineW32 {s : State} {r : Reg} {v : Word} {rest : List HostEvent} (hl : s.cfg.legal = true) (hr : r ≠ .cmd)
    (hs : s.script = lineW32 s.cfg r.offset v :: rest) :
    step s = .next ((writeReg (s.setScript rest) r v).respond .writeDone) := by
  rw [step_of_script hl hs, ← step_issue (s := s.setScript rest) hl]
  exact step_issue_writeReg (s := s.setScript rest) hl hr v

/-- The lines W8 at writable octets store them in order, and change memory, the responses and the host's list alone (R80). -/
theorem stepsTo_linesW8 {s : State} {off : Nat} {bs : List Byte} {rest : List HostEvent} (hl : s.cfg.legal = true)
    (hw : ∀ k < bs.length, Writable s.cfg (off + k)) (hs : s.script = linesW8 s.cfg off bs ++ rest) :
    ∃ rs, StepsTo bs.length s { s with mem := s.mem.writeAll off bs, script := rest, responses := rs } := by
  induction bs generalizing s off with
  | nil =>
    obtain rfl : s.script = rest := hs
    exact ⟨s.responses, rfl⟩
  | cons b bs ih =>
    have hfirst := step_lineW8 hl (hw 0 (Nat.succ_pos _)) hs
    obtain ⟨rs, hrest⟩ := ih (s := ((s.setScript (linesW8 s.cfg (off + 1) bs ++ rest)).setMem (s.mem.write off b)).respond .writeDone)
      (off := off + 1) hl
      (fun k hk => by
        have hlane := hw (k + 1) (Nat.succ_lt_succ hk)
        rwa [Nat.add_comm k, ← Nat.add_assoc] at hlane)
      rfl
    exact ⟨rs, _, hfirst, hrest⟩

/-- The lines W8 of an operand, then the line W32 of its length register: the form of LOADA and of LOADB (R80). -/
theorem stepsTo_load {s : State} {base : Nat} {bs : List Byte} {r : Reg} {v : Word} {rest : List HostEvent}
    (hl : s.cfg.legal = true) (hw : ∀ k < bs.length, Writable s.cfg (base + k)) (hr : r ≠ .cmd)
    (hs : s.script = linesW8 s.cfg base bs ++ [lineW32 s.cfg r.offset v] ++ rest) :
    ∃ rs, StepsTo (bs.length + 1) s
      ((writeReg { s with mem := s.mem.writeAll base bs, script := rest, responses := rs } r v).respond .writeDone) := by
  rw [List.append_assoc] at hs
  obtain ⟨rs, hoctets⟩ := stepsTo_linesW8 hl hw hs
  exact ⟨rs, hoctets.snoc (step_lineW32 hl hr rfl)⟩

/-- The octets stored in order from `base` up are those a command reads there (R67, R80). -/
theorem operandOctets_writeAll {s : State} {m : Memory} {base n : Nat} {bs : List Byte} (hm : s.mem = m.writeAll base bs)
    (hn : n = bs.length) : operandOctets s base n = bs := by
  subst hn
  apply List.ext_getElem
  · rw [operandOctets_length]
  · intro k hk hbs
    rw [operandOctets_getElem, operandOctet, hm, Memory.writeAll_read_inside _ _ hbs]

/-- The number of octets of an operand that fits is a length register's value, with no wrap. -/
theorem ofNat_length_toNat {c : Config} (hl : c.legal = true) {n : Nat} (h : n ≤ c.maxIn) : (BitVec.ofNat 32 n).toNat = n := by
  have hin := maxIn_le_of_legal hl
  rw [BitVec.toNat_ofNat, Nat.mod_eq_of_lt (by omega)]

end Sys2Proof.Machine
end

section
/-! The statements about the host's side (spec/70_reset_and_hazards.md, spec/30_encoding.md). -/

namespace Sys2Proof.Machine

/-- Settles O55: only a read can fault, a register read answers its value, and a result octet is listed. -/
theorem readingTheResultAfterSuccessIsSafe : Obligations.ReadingTheResultAfterSuccessIsSafe := by
  intro s hinv
  have hl : s.cfg.legal = true := hinv.1
  have hsafe (e : HostEvent) (he : ∀ addr size, e ≠ .read addr size) : SafeStep (s.issue e) := fun f h => by
    rw [step_issue hl] at h
    obtain ⟨off, size, hread, _⟩ := fault_of_performEvent h
    exact he _ _ hread
  refine ⟨fun addr size v => hsafe _ nofun, fun e he => hsafe e ?_, fun r f h => ?_, fun hsuccess k hk => ?_⟩
  · rintro addr size rfl
    rcases he with he | ⟨w, he⟩
    · exact nomatch he
    · exact nomatch he
  · exact nomatch (step_issue_readReg hl r).symm.trans h
  · obtain ⟨b, hb⟩ := resultOctet_of_inv hinv hsuccess hk
    have hread : resultOctet s k = some b := hb s.draws s.resets
    obtain ⟨_, _, _, _, hfit, _⟩ := hinv
    have hmax := maxOut_le_of_legal hl
    exact ⟨b, hread, step_issue_readBuffer_data hl (by omega) (.inr ⟨rfl, by omega⟩) (readLanes_one hread)⟩

/-- Settles O56, by the event: a dutiful access is accepted, and a dutiful CMD word is a command. -/
theorem dutifulHostDrawsNoBusErrorAndNoIllegalOp : Obligations.DutifulHostDrawsNoBusErrorAndNoIllegalOp := by
  intro s t e hinv hduty h
  have hl : s.cfg.legal = true := hinv.1
  rw [step_issue hl] at h
  cases e with
  | read addr size =>
    simp only [dutifulEvent] at hduty
    rw [performEvent] at h
    cases hoff : blockOffset s.cfg addr with
    | none =>
      rw [hoff] at h
      obtain rfl := Host.Outcome.next.inj h
      exact ⟨rfl, rfl, id, nofun⟩
    | some off =>
      rw [hoff] at h hduty
      rcases hostRead_cases s off size with ⟨_, d, hr⟩ | ⟨_, o, _, hr⟩ | ⟨hna, _⟩
      · obtain rfl := Host.Outcome.next.inj (hr.symm.trans h)
        exact ⟨rfl, rfl, id, nofun⟩
      · exact nomatch hr.symm.trans h
      · exact absurd hduty hna
  | write addr size v =>
    simp only [dutifulEvent] at hduty
    rw [performEvent] at h
    have hcmdOffset : blockOffset s.cfg (s.cfg.base + 0x000) = some 0 := blockOffset_busAddress s.cfg (by decide)
    cases hoff : blockOffset s.cfg addr with
    | none =>
      rw [hoff] at h
      obtain rfl := Host.Outcome.next.inj h
      refine ⟨rfl, rfl, id, fun w he => ?_⟩
      obtain ⟨rfl, _⟩ := HostEvent.write.inj he
      exact nomatch hoff.symm.trans hcmdOffset
    | some off =>
      rw [hoff] at h hduty
      obtain ⟨ha, hplace⟩ := Bool.and_eq_true_iff.1 hduty
      obtain ⟨hresponses, hcmd, hother⟩ := hostWrite_dutiful hl ha (fun hp => by simpa only [hp] using hplace) h
      rw [hresponses]
      refine ⟨rfl, rfl, hother, fun w he => hcmd ?_⟩
      obtain ⟨rfl, _⟩ := HostEvent.write.inj he
      obtain rfl := Option.some.inj (hoff.symm.trans hcmdOffset)
      rfl
  | reset =>
    obtain rfl := Host.Outcome.next.inj h
    exact ⟨rfl, rfl, fun _ => (by decide : (0 : Word) ≠ 0x43), nofun⟩
  | resetDuringCommand w =>
    obtain rfl := Host.Outcome.next.inj h
    exact ⟨rfl, rfl, fun _ => (by decide : (0 : Word) ≠ 0x43), nofun⟩

/-- Settles O57: the observation shows BUF_OUT in the result alone, whose octets are listed. -/
theorem observationSaysNothingOfUnspecifiedOctets : Obligations.ObservationSaysNothingOfUnspecifiedOctets := by
  intro s d r hinv
  have hresult : (observe { s with draws := d, resets := r }).result = (observe s).result := by
    refine if_ctx_congr Iff.rfl (fun hsuccess => congrArg some (List.map_congr_left fun k hk => ?_)) fun _ => rfl
    obtain ⟨b, hb⟩ := resultOctet_of_inv hinv hsuccess (List.mem_range.1 hk)
    exact (hb d r).trans (hb s.draws s.resets).symm
  exact congrArg (fun o => { observe s with result := o }) hresult

/-- Settles O58: the octets are stored one line each, then their number in LEN_A. -/
theorem loadaPutsItsOctetsIntoOperandA : Obligations.LoadaPutsItsOctetsIntoOperandA := by
  intro s bs rest hl hfit hs
  have hw (k : Nat) (hk : k < bs.length) : Writable s.cfg (bufABase + k) :=
    .inl ⟨Nat.le_add_right .., Nat.add_lt_add_left (hk.trans_le hfit) _⟩
  obtain ⟨rs, hload⟩ := stepsTo_load (r := .lenA) hl hw (by decide) hs
  have hlen := ofNat_length_toNat hl hfit
  exact ⟨_, hload, operandOctets_writeAll rfl hlen, hlen, rfl, rfl, rfl, rfl, rfl, rfl,
    fun a ha => Memory.writeAll_read_outside _ _ ha⟩

/-- Settles O60: the octets are stored one line each, then their number in LEN_B. -/
theorem loadbPutsItsOctetsIntoOperandB : Obligations.LoadbPutsItsOctetsIntoOperandB := by
  intro s bs rest hl hfit hs
  have hw (k : Nat) (hk : k < bs.length) : Writable s.cfg (bufBBase + k) :=
    .inr ⟨Nat.le_add_right .., Nat.add_lt_add_left (hk.trans_le hfit) _⟩
  obtain ⟨rs, hload⟩ := stepsTo_load (r := .lenB) hl hw (by decide) hs
  have hlen := ofNat_length_toNat hl hfit
  exact ⟨_, hload, operandOctets_writeAll rfl hlen, hlen, rfl, rfl, rfl, rfl, rfl, rfl,
    fun a ha => Memory.writeAll_read_outside _ _ ha⟩

end Sys2Proof.Machine
end
